-- ==== Sys2Proof/Word.lean ====
section
/-! DEFINITION. The word types of the CORE: a byte (R8, XLEN = 8), the 9-bit program counter (R25) and a register index (R21). -/

namespace Sys2Proof

/-- A byte: a register value, a memory cell, an opcode or an operand byte (R7 XLEN, R8). -/
abbrev Byte := BitVec 8

/-- The program counter: PCLEN = 9 bits, values 0 to 256 (R25, D5; log entry 3). -/
abbrev Pc := BitVec 9

/-- A register index, 0 to 7 (R21, NREG = 8). -/
abbrev Reg := Fin 8

end Sys2Proof
end

