-- ==== Sys2Proof/Config.lean ====
section
/-! DEFINITION. What is fixed before the first step: the parameters of R7, and the closed set of instruction names and formats (R83, R84). The opcode values (parameter OPC, D1) stand in Decode.lean. -/

namespace Sys2Proof

/-- The fifteen instruction names, in the order of the opcode map R84. -/
inductive Mnemonic where
  | HLT | LDI | PRN | MUL | ADD | SUB | DIV | CMP | PUSH | POP | CALL | RET | JMP | JEQ | JNE
  deriving DecidableEq, Repr

/-- The four formats of R83. -/
inductive Format where
  /-- One byte: the opcode alone. -/
  | F0
  /-- Two bytes: opcode, register. -/
  | F1R
  /-- Three bytes: opcode, register, register. -/
  | F2RR
  /-- Three bytes: opcode, register, immediate. -/
  | F2RI
  deriving DecidableEq, Repr

/-- Every instruction name, once (R84). -/
def Mnemonic.all : List Mnemonic :=
  [.HLT, .LDI, .PRN, .MUL, .ADD, .SUB, .DIV, .CMP, .PUSH, .POP, .CALL, .RET, .JMP, .JEQ, .JNE]

/-- An assignment of opcode bytes to instructions (R84: "one configuration table"; parameter OPC of R7). -/
abbrev OpcodeMap := Mnemonic → Byte

namespace Config

/-- SP_INDEX (R7): the register used as stack pointer. -/
def spIndex : Reg := 7

/-- STACK_TOP (R7): the reset value of SP and the empty-stack boundary. -/
def stackTop : Byte := 0xF4

/-- PC_RESET (R7). -/
def pcReset : Pc := 0

/-- MEM_SIZE (R7): cells 0 to 255. -/
def memSize : Nat := 256

/-- MEM_FILL (R7): what a cell the loader did not write reads as. DESIGN CHOICE of the spec, D9; log entry 8. -/
def memFill : Byte := 0x00

end Config

end Sys2Proof
end

