-- ==== Sys2Proof/Syntax.lean ====
section
/-! DEFINITION. The instructions: one constructor per row of spec/opcode_table.json, carrying the operand bytes `a`, `b` of R82 as they stand in the instruction. -/

namespace Sys2Proof

/-- An instruction of the opcode map R84 with its operand bytes (R82, R83). `a` and `b` name registers when they are 0 to 7; `v` is LDI's immediate. -/
inductive Instr where
  /-- R130. -/
  | hlt
  /-- R131. -/
  | ldi (a v : Byte)
  /-- R132. -/
  | prn (a : Byte)
  /-- R142. -/
  | mul (a b : Byte)
  /-- R143. -/
  | add (a b : Byte)
  /-- R144. -/
  | sub (a b : Byte)
  /-- R145. -/
  | div (a b : Byte)
  /-- R146. -/
  | cmp (a b : Byte)
  /-- R161. -/
  | push (a : Byte)
  /-- R162. -/
  | pop (a : Byte)
  /-- R163. -/
  | call (a : Byte)
  /-- R164. -/
  | ret
  /-- R181. -/
  | jmp (a : Byte)
  /-- R182. -/
  | jeq (a : Byte)
  /-- R183. -/
  | jne (a : Byte)
  deriving DecidableEq, Repr

/-- The name of an instruction. -/
def Instr.mnemonic : Instr → Mnemonic
  | .hlt => .HLT
  | .ldi _ _ => .LDI
  | .prn _ => .PRN
  | .mul _ _ => .MUL
  | .add _ _ => .ADD
  | .sub _ _ => .SUB
  | .div _ _ => .DIV
  | .cmp _ _ => .CMP
  | .push _ => .PUSH
  | .pop _ => .POP
  | .call _ => .CALL
  | .ret => .RET
  | .jmp _ => .JMP
  | .jeq _ => .JEQ
  | .jne _ => .JNE

end Sys2Proof
end

