-- ==== Sys2Proof/WellFormed.lean ====
section
/-! DEFINITION. Well-formed instructions: every register operand names a register (R82, R90). LDI's immediate is never checked (R131). -/

namespace Sys2Proof

/-- A register operand byte names a register exactly when it is 0 to 7 (R82, R90). -/
def namesRegister (r : Byte) : Bool := r.toNat < 8

/-- Every register operand of the instruction names a register (R90). -/
def Instr.wellFormed : Instr → Bool
  | .hlt => true
  | .ldi a _ => namesRegister a
  | .prn a => namesRegister a
  | .mul a b => namesRegister a && namesRegister b
  | .add a b => namesRegister a && namesRegister b
  | .sub a b => namesRegister a && namesRegister b
  | .div a b => namesRegister a && namesRegister b
  | .cmp a b => namesRegister a && namesRegister b
  | .push a => namesRegister a
  | .pop a => namesRegister a
  | .call a => namesRegister a
  | .ret => true
  | .jmp a => namesRegister a
  | .jeq a => namesRegister a
  | .jne a => namesRegister a

/-- The instruction is well-formed. -/
abbrev Instr.WellFormed (i : Instr) : Prop := i.wellFormed = true

end Sys2Proof
end

