-- ==== Sys2Proof/Decode.lean ====
section
/-! DEFINITION. The opcode map (R84), the decoder (R92) and, after it, the encoder (R95). Both take the opcode map as an argument, so that the map can be substituted (D1). -/

namespace Sys2Proof

/-- The opcode map R84. DESIGN CHOICE of the spec, D1 (the LS-8 values); log entry 1. -/
def opc : OpcodeMap
  | .HLT => 0x01
  | .LDI => 0x82
  | .PRN => 0x47
  | .MUL => 0xA2
  | .ADD => 0xA0
  | .SUB => 0xA1
  | .DIV => 0xA3
  | .CMP => 0xA7
  | .PUSH => 0x45
  | .POP => 0x46
  | .CALL => 0x50
  | .RET => 0x11
  | .JMP => 0x54
  | .JEQ => 0x55
  | .JNE => 0x56

/-- The format of each instruction, R83 and R84. -/
def Mnemonic.format : Mnemonic → Format
  | .HLT | .RET => .F0
  | .PRN | .PUSH | .POP | .CALL | .JMP | .JEQ | .JNE => .F1R
  | .MUL | .ADD | .SUB | .DIV | .CMP => .F2RR
  | .LDI => .F2RI

/-- The number of operand bytes of a format, R83. -/
def Format.operandCount : Format → Nat
  | .F0 => 0
  | .F1R => 1
  | .F2RR => 2
  | .F2RI => 2

/-- The number `n` of operand bytes of an instruction, R83. -/
def Mnemonic.operandCount (m : Mnemonic) : Nat := m.format.operandCount

/-- `ir[7:6]`, the operand count field of an opcode byte (R81). -/
def countField (ir : Byte) : Nat := ir.toNat / 64

/-- What R84 and D1 ask of an opcode map: the 15 bytes are pairwise distinct and bits 7:6 of each are its operand count. -/
def OpcodeMap.admissible (m : OpcodeMap) : Bool :=
  Mnemonic.all.all fun p => countField (m p) == p.operandCount && Mnemonic.all.all fun q => m p != m q || p == q

/-- Why bytes do not decode. The core raises DecodeError for `operandCountThree`, `unknownOpcode` and `badRegister` (R201); `noBytes` and `truncated` never reach the decoder from a step, whose fetch raises BoundsError first (R205). -/
inductive DecodeReject where
  /-- There is no opcode byte. -/
  | noBytes
  /-- R88: `ir[7:6]` = 3. -/
  | operandCountThree
  /-- There are fewer than `n` operand bytes. -/
  | truncated
  /-- R87: the byte is none of the 15. -/
  | unknownOpcode
  /-- R90: a register operand byte is above 7. -/
  | badRegister
  deriving DecidableEq, Repr

/-- The instruction whose opcode is `ir` under the map, matched on all 8 bits (R85). -/
def mnemonicOf (m : OpcodeMap) (ir : Byte) : Option Mnemonic := Mnemonic.all.find? fun p => m p == ir

/-- The instruction of a name and its operand bytes, the first written operand being byte `a` (R93, R92). An operand the format lacks is ignored. -/
def assemble (p : Mnemonic) (a b : Byte) : Instr :=
  match p with
  | .HLT => .hlt
  | .LDI => .ldi a b
  | .PRN => .prn a
  | .MUL => .mul a b
  | .ADD => .add a b
  | .SUB => .sub a b
  | .DIV => .div a b
  | .CMP => .cmp a b
  | .PUSH => .push a
  | .POP => .pop a
  | .CALL => .call a
  | .RET => .ret
  | .JMP => .jmp a
  | .JEQ => .jeq a
  | .JNE => .jne a

/-- The dispatch and the operand checks of R92 and R113: whole-byte match, then `need_reg` on every register operand, either bad operand giving the same error. -/
def decodeOperands (m : OpcodeMap) (ir a b : Byte) : Except DecodeReject Instr :=
  match mnemonicOf m ir with
  | none => .error .unknownOpcode
  | some p => if (assemble p a b).wellFormed then .ok (assemble p a b) else .error .badRegister

/-- Decoding a byte sequence under an opcode map: the instruction at its head and the bytes after it. Total on any bytes (R92), in the order of R112 and R113. -/
def decodeWith (m : OpcodeMap) : List Byte → Except DecodeReject (Instr × List Byte)
  | [] => .error .noBytes
  | ir :: rest =>
    match countField ir, rest with
    | 0, rest => (decodeOperands m ir 0 0).map (·, rest)
    | 1, a :: rest => (decodeOperands m ir a 0).map (·, rest)
    | 2, a :: b :: rest => (decodeOperands m ir a b).map (·, rest)
    | 1, _ => .error .truncated
    | 2, _ => .error .truncated
    | _, _ => .error .operandCountThree

/-- The decoder of the CORE: R92 under the opcode map R84. -/
def decode (bytes : List Byte) : Except DecodeReject (Instr × List Byte) := decodeWith opc bytes

/-- The operand bytes of an instruction, in address order (R54, R83). -/
def Instr.operandBytes : Instr → List Byte
  | .hlt => []
  | .ldi a v => [a, v]
  | .prn a => [a]
  | .mul a b => [a, b]
  | .add a b => [a, b]
  | .sub a b => [a, b]
  | .div a b => [a, b]
  | .cmp a b => [a, b]
  | .push a => [a]
  | .pop a => [a]
  | .call a => [a]
  | .ret => []
  | .jmp a => [a]
  | .jeq a => [a]
  | .jne a => [a]

/-- The bytes of an instruction under an opcode map: opcode, then operands, ascending (R54, R83, R95). -/
def encodeWith (m : OpcodeMap) (i : Instr) : List Byte := m i.mnemonic :: i.operandBytes

/-- The encoder of the CORE (R95). -/
def encode (i : Instr) : List Byte := encodeWith opc i

/-- The three bytes of the longest instruction, from a word numbered as the opcode table numbers it: bits 7:0 are the byte at the lowest address. -/
def wordBytes (nbits w : Nat) : List Byte :=
  let v := w % 2 ^ nbits
  [BitVec.ofNat 8 v, BitVec.ofNat 8 (v / 256), BitVec.ofNat 8 (v / 65536)]

/-- The instruction the decoder reads from an opcode-table word, bits above `nbits` being 0. -/
def decodeTableWord (nbits w : Nat) : Option Instr :=
  match decode (wordBytes nbits w) with
  | .ok (i, _) => some i
  | .error _ => none

end Sys2Proof
end

