-- ==== Sys2Proof/Machine/State.lean ====
section
/-! DEFINITION. The state of the CORE, every element of R20 and nothing else; the reasons a step gives no next state; the reset state (R37, R38). -/

namespace Sys2Proof.Machine

/-- The flags register (R28): three bits, packed in no order (R30, D24). -/
structure Flags where
  /-- Equal. -/
  E : Bool
  /-- Greater-than. -/
  G : Bool
  /-- Less-than. -/
  L : Bool
  deriving DecidableEq, Repr

/-- The three kinds of fatal error (R200). -/
inductive ErrorKind where
  | decodeError | boundsError | arithmeticError
  deriving DecidableEq, Repr

/-- The record of the fault latch (R32). -/
structure FaultRecord where
  kind : ErrorKind
  /-- 1, 2 or 3 (R200). -/
  code : Nat
  /-- The pc of the faulting step. -/
  atPc : Pc
  /-- The opcode byte of that step; none when the opcode fetch itself faulted. -/
  ir : Option Byte
  /-- The offending integer address of a BoundsError; none otherwise. -/
  addr : Option Int
  deriving DecidableEq, Repr

/-- The memory (R50) as its cells that do not hold MEM_FILL, addresses strictly rising (`Memory.wf`; log entry 8). -/
abbrev Memory := List Host.Cell

/-- The whole state (R20). -/
structure State where
  /-- x[0] to x[7]; x[7] is the stack pointer (R21, R22). -/
  regs : Vector Byte 8
  /-- The address of the next instruction to fetch (R25). -/
  pc : Pc
  /-- The flags (R28). -/
  fl : Flags
  /-- The halt flag (R31). -/
  halted : Bool
  /-- The fault latch (R32). -/
  fault : Option FaultRecord
  /-- The bytes PRN has emitted since reset, oldest first (R33). -/
  out : List Byte
  /-- The 256 cells (R50). -/
  mem : Memory
  deriving DecidableEq, Repr

/-- Why no step exists (R110). Both are end states of a run, not errors of the model (U20, D21). -/
inductive Fault where
  /-- Raised by `step` alone, when `halted` is 1. Safe: the core performs no step (R31, R110; log entry 5). -/
  | halted
  /-- Raised by `step` alone, when the fault latch holds this record. Safe: the core performs no step (R32, R110; log entry 5). -/
  | faulted (r : FaultRecord)
  deriving DecidableEq, Repr

/-- Why an instruction has no meaning in the model. -/
inductive Refusal where
  /-- Raised by an arm of `exec` for an instruction not modelled yet; no arm raises it. Safe. -/
  | notModelled (mnemonic : String)
  deriving DecidableEq, Repr

/-- The machine right after reset, memory with nothing listed (R37, R38, R39). -/
def State.reset : State where
  regs := #v[0, 0, 0, 0, 0, 0, 0, Config.stackTop]
  pc := Config.pcReset
  fl := ⟨false, false, false⟩
  halted := false
  fault := none
  out := []
  mem := []

/-- What a meaning or a step answers. -/
abbrev Result := Host.Outcome State Fault Refusal

end Sys2Proof.Machine
end

