-- ==== Sys2Proof/Machine/Flags.lean ====
section
/-! DEFINITION. The only flag computation: CMP's comparison (R28, R146). -/

namespace Sys2Proof.Machine

/-- Equal, Greater, Less of two bytes compared as unsigned integers (R146). -/
def compareFlags (p q : Byte) : Flags :=
  { E := p.toNat == q.toNat, G := decide (p.toNat > q.toNat), L := decide (p.toNat < q.toNat) }

end Sys2Proof.Machine
end

