-- ==== Sys2Proof/Machine/Ops.lean ====
section
/-! DEFINITION. The named operations over memory, registers, pc, output and the fault latch, and the one operation by which every error is raised (R206). There is no return from an error (R208). -/

namespace Sys2Proof.Machine

/-- The byte in a cell; an unlisted cell reads MEM_FILL (R39). -/
def Memory.read : Memory → Nat → Byte
  | [], _ => Config.memFill
  | (k, v) :: m, a => if a = k then v else Memory.read m a

/-- Store a byte in a cell, keeping addresses rising and listing no cell that holds MEM_FILL. -/
def Memory.write : Memory → Nat → Byte → Memory
  | [], a, v => if v = Config.memFill then [] else [(a, v)]
  | (k, w) :: m, a, v =>
    if a < k then (if v = Config.memFill then (k, w) :: m else (a, v) :: (k, w) :: m)
    else if a = k then (if v = Config.memFill then m else (a, v) :: m)
    else (k, w) :: Memory.write m a v

/-- Every cell listed is at `lo` or above, within the address space, higher than the one before it, and does not hold MEM_FILL. -/
def Memory.wfFrom (lo : Nat) : Memory → Bool
  | [] => true
  | (k, v) :: m => lo ≤ k && k < Config.memSize && v != Config.memFill && Memory.wfFrom (k + 1) m

/-- The canonical form of memory: equal memories are equal lists. -/
def Memory.wf (m : Memory) : Bool := Memory.wfFrom 0 m

/-- The bounds test the core makes on the integer address before an access (R52, R59): the address as a byte, or the offending integer. -/
def checkAddr (a : Int) : Except Int Byte :=
  if 0 ≤ a ∧ a ≤ 255 then .ok (BitVec.ofInt 8 a) else .error a

/-- The read transaction (R59): a byte of memory at an address 0 to 255. -/
def State.load (s : State) (a : Byte) : Byte := s.mem.read a.toNat

/-- The write transaction (R59). -/
def State.store (s : State) (a v : Byte) : State := { s with mem := s.mem.write a.toNat v }

/-- `x[i]` (R10). -/
def State.reg (s : State) (i : Reg) : Byte := s.regs[i.val]

/-- `x[i] <- v` (R10). No register is hardwired (R21). -/
def State.setReg (s : State) (i : Reg) (v : Byte) : State := { s with regs := s.regs.set i.val v }

/-- The stack pointer, register 7 (R22). -/
def State.sp (s : State) : Byte := s.reg Config.spIndex

/-- `fl <- (E, G, L)` (R10). -/
def State.setFlags (s : State) (f : Flags) : State := { s with fl := f }

/-- `Emit(v)`: append a byte to the output log (R13). -/
def State.emit (s : State) (v : Byte) : State := { s with out := s.out ++ [v] }

/-- `halted <- 1` (R10, R31). -/
def State.setHalted (s : State) : State := { s with halted := true }

/-- `pc <- zext_9(v)`, a control transfer to the address in a byte (R10, R180). -/
def State.jumpTo (s : State) (v : Byte) : State := { s with pc := v.zeroExtend 9 }

/-- `next` = pc + 1 + n, the integer address of the byte after an instruction that stands at the pc (R17, R114). -/
def State.next (s : State) (m : Mnemonic) : Nat := s.pc.toNat + 1 + m.operandCount

/-- `pc <- next` (R115). -/
def State.advance (s : State) (m : Mnemonic) : State := { s with pc := BitVec.ofNat 9 (s.next m) }

/-- The numeric code of an error kind (R200, D23). -/
def ErrorKind.code : ErrorKind → Nat
  | .decodeError => 1
  | .boundsError => 2
  | .arithmeticError => 3

/-- The record of an error raised in state `s`, whose pc is the address of the faulting instruction (R32). -/
def faultRecord (k : ErrorKind) (ir : Option Byte) (addr : Option Int) (s : State) : FaultRecord :=
  { kind := k, code := k.code, atPc := s.pc, ir := ir, addr := addr }

/-- Fault entry (R206, R207): the latch takes the record and nothing else changes. -/
def takeFault (r : FaultRecord) (s : State) : State := { s with fault := some r }

/-- `raise <Kind>(info)` (R12): the fault is taken and the step ends. The faulted state is a NEXT state (log entry 4). -/
def raise (k : ErrorKind) (ir : Option Byte) (addr : Option Int) (s : State) : Result :=
  .next (takeFault (faultRecord k ir addr s) s)

/-- `raise DecodeError(pc, ir)` by an instruction (R90). -/
def raiseDecode (m : Mnemonic) (s : State) : Result := raise .decodeError (some (opc m)) none s

/-- `raise BoundsError(addr)` by an instruction (R202). -/
def raiseBounds (m : Mnemonic) (addr : Int) (s : State) : Result := raise .boundsError (some (opc m)) (some addr) s

/-- `raise ArithmeticError(pc, ir)` by an instruction (R203). -/
def raiseArithmetic (m : Mnemonic) (s : State) : Result := raise .arithmeticError (some (opc m)) none s

end Sys2Proof.Machine
end

