-- ==== Sys2Proof/Machine/Operands.lean ====
section
/-! DEFINITION. The operand forms: the register operand with its check (R82, R90). The immediate is the byte itself (R86) and needs no operation. There is no other addressing mode (R86, R160). -/

namespace Sys2Proof.Machine

/-- The register an operand byte names: 0 to 7, never masked (R90). -/
def regIndex? (r : Byte) : Option Reg := if h : r.toNat < 8 then some ⟨r.toNat, h⟩ else none

/-- The operand byte `00000rrr` of a register (R82). -/
def regByte (r : Reg) : Byte := BitVec.ofNat 8 r.val

/-- `need_reg(r)` (R92), then go on with the register it names. -/
def withReg (m : Mnemonic) (r : Byte) (s : State) (k : Reg → Result) : Result :=
  match regIndex? r with
  | none => raiseDecode m s
  | some i => k i

end Sys2Proof.Machine
end

