-- ==== Sys2Proof/Machine/Alu.lean ====
section
/-! DEFINITION. The ALU (R140, R141) and the five instructions it performs: MUL, ADD, SUB, DIV, CMP. -/

namespace Sys2Proof.Machine

/-- The operation tag of the ALU (R140). -/
inductive AluOp where
  | mul | add | sub | div | cmp
  deriving DecidableEq, Repr

/-- What the ALU outputs (R140): a result, the three flags, or the arithmetic error. -/
inductive AluOut where
  | value (v : Byte)
  | flags (f : Flags)
  | divideByZero
  deriving DecidableEq, Repr

/-- The ALU, a pure function of two register values and an operation tag (R140): exact integer arithmetic, then reduced modulo 256 (R141). -/
def alu (op : AluOp) (p q : Byte) : AluOut :=
  match op with
  | .mul => .value (BitVec.ofNat 8 (p.toNat * q.toNat))
  | .add => .value (BitVec.ofNat 8 (p.toNat + q.toNat))
  | .sub => .value (BitVec.ofInt 8 ((p.toNat : Int) - (q.toNat : Int)))
  | .div => if q.toNat = 0 then .divideByZero else .value (BitVec.ofNat 8 (p.toNat / q.toNat))
  | .cmp => .flags (compareFlags p q)

/-- What the engine does with the ALU's output (R140): write `x[a]`, write the flags, or raise ArithmeticError. -/
def writeAluOut (m : Mnemonic) (a : Reg) (o : AluOut) (s : State) : Result :=
  match o with
  | .value v => .next ((s.setReg a v).advance m)
  | .flags f => .next ((s.setFlags f).advance m)
  | .divideByZero => raiseArithmetic m s

/-- An ALU instruction: check `a`, then `b`, read both, operate, write (R142 to R146). -/
def aluInstr (op : AluOp) (m : Mnemonic) (a b : Byte) (s : State) : Result :=
  withReg m a s fun i => withReg m b s fun j => writeAluOut m i (alu op (s.reg i) (s.reg j)) s

/-- MUL, R142. -/
def execMul (a b : Byte) (s : State) : Result := aluInstr .mul .MUL a b s

/-- ADD, R143. -/
def execAdd (a b : Byte) (s : State) : Result := aluInstr .add .ADD a b s

/-- SUB, R144: first operand minus second. -/
def execSub (a b : Byte) (s : State) : Result := aluInstr .sub .SUB a b s

/-- DIV, R145. The destination is the spec's decision D14; log entry 12. -/
def execDiv (a b : Byte) (s : State) : Result := aluInstr .div .DIV a b s

/-- CMP, R146. -/
def execCmp (a b : Byte) (s : State) : Result := aluInstr .cmp .CMP a b s

end Sys2Proof.Machine
end

