-- ==== Sys2Proof/Machine/Branch.lean ====
section
/-! DEFINITION. JMP, JEQ and JNE (R180 to R183). -/

namespace Sys2Proof.Machine

/-- A jump that is taken or falls through (R180): the register operand is checked either way. -/
def branchIf (taken : Bool) (m : Mnemonic) (a : Byte) (s : State) : Result :=
  withReg m a s fun i => .next (if taken then s.jumpTo (s.reg i) else s.advance m)

/-- JMP, R181. -/
def execJmp (a : Byte) (s : State) : Result := branchIf true .JMP a s

/-- JEQ, R182: taken when Equal is set. -/
def execJeq (a : Byte) (s : State) : Result := branchIf s.fl.E .JEQ a s

/-- JNE, R183: taken when Equal is clear. -/
def execJne (a : Byte) (s : State) : Result := branchIf (!s.fl.E) .JNE a s

end Sys2Proof.Machine
end

