-- ==== Sys2Proof/Machine/Stack.lean ====
section
/-! DEFINITION. The stack discipline (R160, R165, R166) and PUSH, POP, CALL, RET (R161 to R164). Effects run in written order, each reading what the one before it left (R14, D12; log entry 10). -/

namespace Sys2Proof.Machine

/-- The address a push writes: the integer SP - 1, refused below 0 (R166). -/
def pushAddr (s : State) : Except Int Byte := checkAddr ((s.sp.toNat : Int) - 1)

/-- The address a pop reads: SP, refused when the stack is empty, SP ≥ STACK_TOP (R165). -/
def popAddr (s : State) : Except Int Byte :=
  if s.sp.toNat ≥ Config.stackTop.toNat then .error (s.sp.toNat : Int) else .ok s.sp

/-- The push at address `d`: lower SP to `d`, then write the value read in the state that leaves (R160, R14). -/
def pushAt (d : Byte) (value : State → Byte) (s : State) : State :=
  let s₁ := s.setReg Config.spIndex d
  s₁.store d (value s₁)

/-- SP ← SP + 1, modulo 256 (R162, R164). -/
def raiseSp (s : State) : State := s.setReg Config.spIndex (BitVec.ofNat 8 (s.sp.toNat + 1))

/-- PUSH, R161. PUSH R7 stores the lowered SP. -/
def execPush (a : Byte) (s : State) : Result :=
  withReg .PUSH a s fun i =>
    match pushAddr s with
    | .error addr => raiseBounds .PUSH addr s
    | .ok d => .next ((pushAt d (fun s₁ => s₁.reg i) s).advance .PUSH)

/-- POP, R162. POP R7 raises the SP it has just loaded. -/
def execPop (a : Byte) (s : State) : Result :=
  withReg .POP a s fun i =>
    match popAddr s with
    | .error addr => raiseBounds .POP addr s
    | .ok d => .next ((raiseSp (s.setReg i (s.load d))).advance .POP)

/-- CALL, R163: the stack check comes before the return-address check (R205). CALL R7 jumps to the lowered SP. -/
def execCall (a : Byte) (s : State) : Result :=
  withReg .CALL a s fun i =>
    match pushAddr s with
    | .error addr => raiseBounds .CALL addr s
    | .ok d =>
      if s.next .CALL > 255 then raiseBounds .CALL 256 s
      else
        let s₁ := pushAt d (fun _ => BitVec.ofNat 8 (s.next .CALL)) s
        .next (s₁.jumpTo (s₁.reg i))

/-- RET, R164. -/
def execRet (s : State) : Result :=
  match popAddr s with
  | .error addr => raiseBounds .RET addr s
  | .ok d => .next (raiseSp (s.jumpTo (s.load d)))

end Sys2Proof.Machine
end

