-- ==== Sys2Proof/Machine/System.lean ====
section
/-! DEFINITION. HLT, LDI and PRN (R130, R131, R132). -/

namespace Sys2Proof.Machine

/-- HLT, R130. That the pc advances is the spec's decision D16; log entry 13. -/
def execHlt (s : State) : Result := .next (s.setHalted.advance .HLT)

/-- LDI, R131: the immediate is stored unchanged. -/
def execLdi (a v : Byte) (s : State) : Result :=
  withReg .LDI a s fun i => .next ((s.setReg i v).advance .LDI)

/-- PRN, R132. -/
def execPrn (a : Byte) (s : State) : Result :=
  withReg .PRN a s fun i => .next ((s.emit (s.reg i)).advance .PRN)

end Sys2Proof.Machine
end

