-- ==== Sys2Proof/Machine/Fetch.lean ====
section
/-! DEFINITION. The fetch of an instruction's bytes (R111, R112), and storing a word where it fetches. -/

namespace Sys2Proof.Machine

/-- Fetch one instruction byte at an integer address; outside 0 to 255 a BoundsError with the opcode fetched so far (R52, R111, R112). -/
def fetchByte (s : State) (ir : Option Byte) (a : Nat) : Except FaultRecord Byte :=
  match checkAddr a with
  | .error bad => .error (faultRecord .boundsError ir (some bad) s)
  | .ok d => .ok (s.load d)

/-- Fetch `n` operand bytes from address `a` upward, stopping at the first that is out of bounds (R112). -/
def fetchOperands (s : State) (ir : Byte) : (n a : Nat) → Except FaultRecord (List Byte)
  | 0, _ => .ok []
  | n + 1, a =>
    match fetchByte s (some ir) a with
    | .error r => .error r
    | .ok b =>
      match fetchOperands s ir n (a + 1) with
      | .error r => .error r
      | .ok bs => .ok (b :: bs)

/-- The bytes of the instruction at the pc, or the error its fetch raises (R111, R112): opcode; count 3 refused at once (R88); operands. -/
def fetch (s : State) : Except FaultRecord (List Byte) :=
  match fetchByte s none s.pc.toNat with
  | .error r => .error r
  | .ok ir =>
    if countField ir = 3 then .error (faultRecord .decodeError (some ir) none s)
    else
      match fetchOperands s ir (countField ir) (s.pc.toNat + 1) with
      | .error r => .error r
      | .ok bs => .ok (ir :: bs)

/-- Store bytes at ascending addresses from `a`; an address above 255 does not exist and takes nothing. -/
def storeBytes : List Byte → Nat → Memory → Memory
  | [], _, m => m
  | b :: bs, a, m => storeBytes bs (a + 1) (if a < Config.memSize then m.write a b else m)

/-- The three bytes of an opcode-table word, stored where the next fetch reads (log entry 18). -/
def storeFetchWord (s : State) (nbits w : Nat) : State :=
  { s with mem := storeBytes (wordBytes nbits w) s.pc.toNat s.mem }

end Sys2Proof.Machine
end

