-- ==== Sys2Proof/Machine/Cycle.lean ====
section
/-! DEFINITION. The fetch, decode, execute cycle (R110 to R115, R118). -/

namespace Sys2Proof.Machine

/-- The instruction that runs when `bytes` were fetched: decode, then execute; bytes that do not decode raise DecodeError with the opcode byte (R113). -/
def runFetched (bytes : List Byte) (s : State) : Result :=
  match decode bytes with
  | .error _ => raise .decodeError bytes.head? none s
  | .ok (i, _) => exec i s

/-- One step (R118). It exists only while `halted` is 0 and `fault` is none (R110; log entry 5). -/
def cycle (s : State) : Result :=
  match s.halted, s.fault with
  | true, _ => .fault .halted
  | false, some r => .fault (.faulted r)
  | false, none =>
    match fetch s with
    | .error r => .next (takeFault r s)
    | .ok bytes => runFetched bytes s

end Sys2Proof.Machine
end

