-- ==== Sys2Proof/Machine/Step.lean ====
section
/-! DEFINITION. The step, and placing an instruction where it fetches. -/

namespace Sys2Proof.Machine

/-- One step of the CORE (R118). -/
def step (s : State) : Host.Outcome State Fault Refusal := cycle s

/-- The state with an opcode-table word stored where `step` fetches its next instruction (log entry 18). -/
def State.withFetchWord (s : State) (nbits w : Nat) : State := storeFetchWord s nbits w

end Sys2Proof.Machine
end

