-- ==== Sys2Proof/Machine/Boot.lean ====
section
/-! DEFINITION. What the host does before a run: load a program (R60), apply and release reset (R230, R232). -/

namespace Sys2Proof.Machine

/-- What the loader finds where the program is kept (R60). How it reads it is no part of the core (R4). -/
inductive ProgramSource where
  /-- A sequence of raw bytes, the image. -/
  | image (bytes : List Byte)
  /-- The source is unreadable. -/
  | unreadable
  deriving DecidableEq, Repr

/-- The error the loader reports; the core is then never released from reset (R60). -/
inductive LoadError where
  /-- The source is unreadable (D26; log entry 18). -/
  | unreadable
  /-- The image has more than 256 bytes (D9; log entry 18). -/
  | imageTooLong
  deriving DecidableEq, Repr

/-- Reset (R230, R231): every element but memory to its reset value, from any state. -/
def applyReset (s : State) : State := { State.reset with mem := s.mem }

/-- The loader's contract (R60, R39): byte `i` of the image to cell `i`, the rest MEM_FILL; or the error it reports. -/
def load : ProgramSource → Except LoadError Memory
  | .unreadable => .error .unreadable
  | .image bytes => if bytes.length ≤ Config.memSize then .ok (storeBytes bytes 0 []) else .error .imageTooLong

/-- Steps (1) and (2) of R232, from any state `s`, which makes it the restart of R241 too: the program is loaded, then reset applied and released. On an error of the loader there is no state of a running core. -/
def boot (src : ProgramSource) (s : State) : Except LoadError State :=
  (load src).map fun m => applyReset { s with mem := m }

end Sys2Proof.Machine
end

