-- ==== Sys2Proof/Machine/Events.lean ====
section
/-! DEFINITION. The event history of a step (R68), as a function of the state before it. -/

namespace Sys2Proof.Machine

/-- What a step records (R68). -/
inductive Event where
  /-- A byte of memory read, at this address. -/
  | read (a : Byte)
  /-- A byte of memory written, at this address. -/
  | write (a v : Byte)
  /-- A byte handed to the output sink. -/
  | emit (v : Byte)
  deriving DecidableEq, Repr

/-- The reads of the operand fetch from address `a` upward, up to the first address out of bounds (R112). -/
def operandReads : (n a : Nat) → List Event
  | 0, _ => []
  | n + 1, a =>
    match checkAddr a with
    | .error _ => []
    | .ok d => .read d :: operandReads n (a + 1)

/-- The reads of the fetch (R111, R112): pc, then pc+1 and pc+2 as the operand count asks; an operand count of 3 fetches nothing more. -/
def fetchEvents (s : State) : List Event :=
  match checkAddr s.pc.toNat with
  | .error _ => []
  | .ok d =>
    let n := countField (s.load d)
    .read d :: (if n = 3 then [] else operandReads n (s.pc.toNat + 1))

/-- The access or the output an instruction makes of its own: a write for PUSH and CALL, a read for POP and RET, an emit for PRN, none when it raises an error (R51, R68). -/
def dataEvents (i : Instr) (s : State) : List Event :=
  match i with
  | .hlt => []
  | .ldi _ _ => []
  | .prn a => match regIndex? a with | some r => [.emit (s.reg r)] | none => []
  | .mul _ _ => []
  | .add _ _ => []
  | .sub _ _ => []
  | .div _ _ => []
  | .cmp _ _ => []
  | .push a =>
    match regIndex? a, pushAddr s with
    | some r, .ok d => [.write d ((s.setReg Config.spIndex d).reg r)]
    | _, _ => []
  | .pop a =>
    match regIndex? a, popAddr s with
    | some _, .ok d => [.read d]
    | _, _ => []
  | .call a =>
    match regIndex? a, pushAddr s with
    | some _, .ok d => if s.next .CALL > 255 then [] else [.write d (BitVec.ofNat 8 (s.next .CALL))]
    | _, _ => []
  | .ret =>
    match popAddr s with
    | .ok d => [.read d]
    | .error _ => []
  | .jmp _ => []
  | .jeq _ => []
  | .jne _ => []

/-- The instruction the next step executes, when it gets as far as executing one (R113). -/
def current (s : State) : Option Instr :=
  if s.halted || s.fault.isSome then none
  else
    match fetch s with
    | .error _ => none
    | .ok bytes =>
      match decode bytes with
      | .error _ => none
      | .ok (i, _) => some i

/-- The events of the next step, in order (R68). -/
def stepEvents (s : State) : List Event :=
  if s.halted || s.fault.isSome then []
  else
    fetchEvents s ++
      match current s with
      | none => []
      | some i => dataEvents i s

end Sys2Proof.Machine
end

