-- ==== Sys2Proof/Machine/Reference.lean ====
section
/-! DEFINITION. The spec's own statement of a whole step, R118, written out line by line on integers: one flat function with its own opcode values and its own checks, using neither the decoder nor a meaning. The machine does not call it; a statement says the two agree. -/

namespace Sys2Proof.Machine

/-- `pc <- n`, `n` an integer. -/
def State.withPc (s : State) (n : Nat) : State := { s with pc := BitVec.ofNat 9 n }

/-- The faulted state of R118's `raise`: kind, code, opcode and address as given, the pc recorded. -/
def State.stopped (s : State) (kind : ErrorKind) (code : Nat) (ir : Option Nat) (addr : Option Int) : State :=
  { s with fault := some ⟨kind, code, s.pc, ir.map (BitVec.ofNat 8), addr⟩ }

/-- `reg(r)` of R118, then the rest of the line with the register `r`. -/
def State.regOr (s : State) (ir r : Nat) (line : Reg → State) : State :=
  if h : r > 7 then s.stopped .decodeError 1 (some ir) none else line ⟨r, by omega⟩

/-- The line of R118 for the opcode `ir`, with the operand bytes `a` and `b` and `next` computed; an unknown opcode is the last line. -/
def State.referenceLine (s : State) (ir a b next : Nat) : State :=
  let x (i : Reg) : Nat := (s.reg i).toNat
  let bounds (addr : Int) := s.stopped .boundsError 2 (some ir) (some addr)
  match ir with
  | 0x01 => { s with halted := true }.withPc next
  | 0x82 => s.regOr ir a fun i => (s.setReg i (BitVec.ofNat 8 b)).withPc next
  | 0x47 => s.regOr ir a fun i => { s with out := s.out ++ [BitVec.ofNat 8 (x i)] }.withPc next
  | 0xA2 => s.regOr ir a fun i => s.regOr ir b fun j => (s.setReg i (BitVec.ofNat 8 (x i * x j % 256))).withPc next
  | 0xA0 => s.regOr ir a fun i => s.regOr ir b fun j => (s.setReg i (BitVec.ofNat 8 ((x i + x j) % 256))).withPc next
  | 0xA1 => s.regOr ir a fun i => s.regOr ir b fun j =>
      (s.setReg i (BitVec.ofNat 8 (((x i : Int) - x j) % 256).toNat)).withPc next
  | 0xA3 => s.regOr ir a fun i => s.regOr ir b fun j =>
      if x j = 0 then s.stopped .arithmeticError 3 (some ir) none
      else (s.setReg i (BitVec.ofNat 8 (x i / x j))).withPc next
  | 0xA7 => s.regOr ir a fun i => s.regOr ir b fun j =>
      { s with fl := ⟨decide (x i = x j), decide (x i > x j), decide (x i < x j)⟩ }.withPc next
  | 0x45 => s.regOr ir a fun i =>
      if x 7 = 0 then bounds (-1)
      else
        let s₁ := s.setReg 7 (BitVec.ofNat 8 (x 7 - 1))
        { s₁ with mem := s₁.mem.write (x 7 - 1) (s₁.reg i) }.withPc next
  | 0x46 => s.regOr ir a fun i =>
      if x 7 ≥ 0xF4 then bounds (x 7)
      else
        let s₁ := s.setReg i (s.mem.read (x 7))
        (s₁.setReg 7 (BitVec.ofNat 8 (((s₁.reg 7).toNat + 1) % 256))).withPc next
  | 0x50 => s.regOr ir a fun i =>
      if x 7 = 0 then bounds (-1)
      else if next > 255 then bounds 256
      else
        let s₁ := s.setReg 7 (BitVec.ofNat 8 (x 7 - 1))
        { s₁ with mem := s₁.mem.write (x 7 - 1) (BitVec.ofNat 8 next) }.withPc (s₁.reg i).toNat
  | 0x11 =>
      if x 7 ≥ 0xF4 then bounds (x 7)
      else (s.setReg 7 (BitVec.ofNat 8 (x 7 + 1))).withPc (s.mem.read (x 7)).toNat
  | 0x54 => s.regOr ir a fun i => s.withPc (x i)
  | 0x55 => s.regOr ir a fun i => if s.fl.E = true then s.withPc (x i) else s.withPc next
  | 0x56 => s.regOr ir a fun i => if s.fl.E = false then s.withPc (x i) else s.withPc next
  | _ => s.stopped .decodeError 1 (some ir) none

/-- R118 from `halted` 0 and an empty latch on: the fetch with its errors, then the opcode's line. -/
def State.referenceRunning (s : State) : State :=
  let pc := s.pc.toNat
  let ir := (s.mem.read pc).toNat
  let n := ir / 64
  if pc > 255 then s.stopped .boundsError 2 none (some 256)
  else if n = 3 then s.stopped .decodeError 1 (some ir) none
  else if n ≥ 1 ∧ pc + 1 > 255 then s.stopped .boundsError 2 (some ir) (some 256)
  else if n = 2 ∧ pc + 2 > 255 then s.stopped .boundsError 2 (some ir) (some 256)
  else s.referenceLine ir (s.mem.read (pc + 1)).toNat (s.mem.read (pc + 2)).toNat (pc + 1 + n)

/-- R118: the state after the step, or none where no step exists. -/
def reference (s : State) : Option State :=
  if s.halted = true ∨ s.fault ≠ none then none else some s.referenceRunning

end Sys2Proof.Machine
end

