-- ==== Sys2Proof/Machine/Run.lean ====
section
/-! DEFINITION. Runs (R116, R239). -/

namespace Sys2Proof.Machine

/-- The state after at most `k` steps; where no step exists the state is held unchanged (R110, R217, R239). -/
def runFor : Nat → State → State
  | 0, s => s
  | k + 1, s =>
    match step s with
    | .next t => runFor k t
    | .fault _ => s
    | .refused _ => s

end Sys2Proof.Machine
end

