-- ==== Sys2Proof/Safety.lean ====
section
/-! DEFINITION. How a run ends (R211, R239) and the invariant of the machine's states (R27, R30, R32, R202, R207, R211). -/

namespace Sys2Proof.Machine

/-- What the host observes of a core (R211). -/
inductive StopStatus where
  /-- `halted` = 0 and `fault` = none. -/
  | running
  /-- `halted` = 1 and `fault` = none: success. -/
  | normalEnd
  /-- `fault` ≠ none: the fatal end, with its record. -/
  | fatalEnd (r : FaultRecord)
  deriving DecidableEq, Repr

/-- The mapping of R211. -/
def State.stopStatus (s : State) : StopStatus :=
  match s.fault with
  | some r => .fatalEnd r
  | none => if s.halted then .normalEnd else .running

/-- The condition under which a step exists (R110). -/
abbrev State.Running (s : State) : Prop := s.halted = false ∧ s.fault = none

/-- A safe run: no step of it ends in a fatal error. -/
def NeverFatal (s : State) : Prop := ∀ k, (runFor k s).fault = none

/-- The four reachable values of the flags (R30): Unset, Equal, Greater, Less. -/
def Flags.legal (f : Flags) : Bool :=
  f == ⟨false, false, false⟩ || f == ⟨true, false, false⟩ || f == ⟨false, true, false⟩ || f == ⟨false, false, true⟩

/-- A BoundsError's cause, one disjunct for each row of R202: opcode fetch at 256; operand fetch at 256 or a return address of 256; push with SP = 0; pop on an empty stack. -/
def boundsCause (atPc : Pc) (ir : Option Byte) (addr : Int) : Bool :=
  match ir with
  | none => addr == 256 && atPc == 256
  | some b =>
    (addr == 256 && (atPc == 254 || atPc == 255))
      || (addr == -1 && (b == opc .PUSH || b == opc .CALL))
      || (244 ≤ addr && addr ≤ 255 && (b == opc .POP || b == opc .RET))

/-- A record the latch may hold (R32, R200 to R203). -/
def FaultRecord.legal (r : FaultRecord) : Bool :=
  r.code == r.kind.code &&
  match r.kind, r.addr with
  | .decodeError, none => r.ir.isSome && r.atPc.toNat ≤ 255
  | .decodeError, some _ => false
  | .boundsError, some a => boundsCause r.atPc r.ir a
  | .boundsError, none => false
  | .arithmeticError, none => r.ir == some (opc .DIV) && r.atPc.toNat ≤ 255
  | .arithmeticError, some _ => false

/-- The latch and the rest of the state agree: a legal record, the pc still at the faulting instruction (R207), and not halted (R206, R211). -/
def State.latchLegal (s : State) : Bool :=
  match s.fault with
  | none => true
  | some r => r.legal && r.atPc == s.pc && !s.halted

/-- The invariant of the machine's states: pc 0 to 256 (R27), flags legal (R30), memory canonical, latch legal (R32). -/
def State.inv (s : State) : Bool :=
  s.pc.toNat ≤ 256 && s.fl.legal && s.mem.wf && s.latchLegal

/-- The invariant as a proposition. -/
abbrev State.Inv (s : State) : Prop := s.inv = true

end Sys2Proof.Machine
end

