-- ==== Sys2Proof/Certificates/Slice0/Obligations.lean ====
section
/-! DEFINITION. The statements about the model, from the numbered rules of spec/. A D<n> named in a docstring is a row of spec/92_eei_decisions.md: a point where the spec marks the rule as its own choice; the log entry beside it records it. -/

namespace Sys2Proof.Claims

open Sys2Proof.Machine

/-- Every register outside the list is as before. -/
def RegistersKeptBut (rs : List Reg) (s t : State) : Prop := ∀ r, r ∉ rs → t.reg r = s.reg r

/-- Every byte of memory reads as before. -/
def MemoryKept (s t : State) : Prop := ∀ a, t.mem.read a = s.mem.read a

/-- Every byte of memory outside address `d` reads as before. -/
def MemoryKeptBut (d : Nat) (s t : State) : Prop := ∀ a, a ≠ d → t.mem.read a = s.mem.read a

/-- The flags, the halt flag, the fault latch and the output are as before. -/
def StatusKept (s t : State) : Prop := t.fl = s.fl ∧ t.halted = s.halted ∧ t.fault = s.fault ∧ t.out = s.out

/-- The fifteen opcode bytes of R84, in its order. -/
def fifteenOpcodes : List Byte :=
  [0x01, 0x82, 0x47, 0xA2, 0xA0, 0xA1, 0xA3, 0xA7, 0x45, 0x46, 0x50, 0x11, 0x54, 0x55, 0x56]

/-- The state after a DecodeError raised at the pc of `s` with opcode `ir` (R32, R200, R207). -/
def decodeErrorAt (ir : Byte) (s : State) : State := { s with fault := some ⟨.decodeError, 1, s.pc, some ir, none⟩ }

/-- The state after a BoundsError raised at the pc of `s` (R32, R200, R207). -/
def boundsErrorAt (ir : Option Byte) (addr : Int) (s : State) : State :=
  { s with fault := some ⟨.boundsError, 2, s.pc, ir, some addr⟩ }

/-- The state after an ArithmeticError raised at the pc of `s` (R32, R200, R207). -/
def arithmeticErrorAt (ir : Byte) (s : State) : State :=
  { s with fault := some ⟨.arithmeticError, 3, s.pc, some ir, none⟩ }

/-- The faulted state an instruction leaves, by the lists of R90, R145, R161 to R164 in the order of R205; none where the instruction completes (R204). -/
def erring (i : Instr) (s : State) : Option State :=
  let badOr (ir : Byte) (rs : List Byte) (rest : Option State) : Option State :=
    if rs.any fun r => decide (r.toNat > 7) then some (decodeErrorAt ir s) else rest
  match i with
  | .hlt => none
  | .ldi a _ => badOr 0x82 [a] none
  | .prn a => badOr 0x47 [a] none
  | .mul a b => badOr 0xA2 [a, b] none
  | .add a b => badOr 0xA0 [a, b] none
  | .sub a b => badOr 0xA1 [a, b] none
  | .div a b => badOr 0xA3 [a, b] (if ∃ r : Reg, b = regByte r ∧ s.reg r = 0 then some (arithmeticErrorAt 0xA3 s) else none)
  | .cmp a b => badOr 0xA7 [a, b] none
  | .push a => badOr 0x45 [a] (if s.sp = 0 then some (boundsErrorAt (some 0x45) (-1) s) else none)
  | .pop a => badOr 0x46 [a] (if s.sp.toNat ≥ 0xF4 then some (boundsErrorAt (some 0x46) s.sp.toNat s) else none)
  | .call a =>
    badOr 0x50 [a]
      (if s.sp = 0 then some (boundsErrorAt (some 0x50) (-1) s)
       else if s.pc.toNat + 2 > 255 then some (boundsErrorAt (some 0x50) 256 s) else none)
  | .ret => if s.sp.toNat ≥ 0xF4 then some (boundsErrorAt (some 0x11) s.sp.toNat s) else none
  | .jmp a => badOr 0x54 [a] none
  | .jeq a => badOr 0x55 [a] none
  | .jne a => badOr 0x56 [a] none

/-- The operand bytes that name a register the instruction writes (R20, column "written by"). -/
def destinationBytes : Instr → List Byte
  | .hlt => []
  | .ldi a _ => [a]
  | .prn _ => []
  | .mul a _ => [a]
  | .add a _ => [a]
  | .sub a _ => [a]
  | .div a _ => [a]
  | .cmp _ _ => []
  | .push _ => []
  | .pop a => [a]
  | .call _ => []
  | .ret => []
  | .jmp _ => []
  | .jeq _ => []
  | .jne _ => []

/-- The instructions that read and write register 7 implicitly (R22). -/
def usesStack : Instr → Bool
  | .hlt => false
  | .ldi _ _ => false
  | .prn _ => false
  | .mul _ _ => false
  | .add _ _ => false
  | .sub _ _ => false
  | .div _ _ => false
  | .cmp _ _ => false
  | .push _ => true
  | .pop _ => true
  | .call _ => true
  | .ret => true
  | .jmp _ => false
  | .jeq _ => false
  | .jne _ => false

/-- The instructions that store a byte to memory (R51). -/
def storesByte : Instr → Bool
  | .hlt => false
  | .ldi _ _ => false
  | .prn _ => false
  | .mul _ _ => false
  | .add _ _ => false
  | .sub _ _ => false
  | .div _ _ => false
  | .cmp _ _ => false
  | .push _ => true
  | .pop _ => false
  | .call _ => true
  | .ret => false
  | .jmp _ => false
  | .jeq _ => false
  | .jne _ => false

/-- The instruction is a CMP. -/
def isCmp : Instr → Bool
  | .hlt => false
  | .ldi _ _ => false
  | .prn _ => false
  | .mul _ _ => false
  | .add _ _ => false
  | .sub _ _ => false
  | .div _ _ => false
  | .cmp _ _ => true
  | .push _ => false
  | .pop _ => false
  | .call _ => false
  | .ret => false
  | .jmp _ => false
  | .jeq _ => false
  | .jne _ => false

/-- The instruction transfers control in this state: JMP, CALL, RET, or a taken JEQ or JNE (R26, R180). -/
def transfers (i : Instr) (s : State) : Bool :=
  match i with
  | .hlt => false
  | .ldi _ _ => false
  | .prn _ => false
  | .mul _ _ => false
  | .add _ _ => false
  | .sub _ _ => false
  | .div _ _ => false
  | .cmp _ _ => false
  | .push _ => false
  | .pop _ => false
  | .call _ => true
  | .ret => true
  | .jmp _ => true
  | .jeq _ => s.fl.E
  | .jne _ => !s.fl.E

/-- How many bytes the fetch of the next step reads (R68): none where no step exists or the pc is 256; the opcode alone where its operand count is 3 (R88); else the opcode and its operands, but none outside 0 to 255 (R59). -/
def fetchReads (s : State) : Nat :=
  let n := (s.mem.read s.pc.toNat).toNat / 64
  if s.halted = true ∨ s.fault ≠ none then 0
  else if s.pc.toNat > 255 then 0
  else if n = 3 then 1
  else min (1 + n) (256 - s.pc.toNat)

/-- The byte a step hands to the sink at this event, if any. -/
def emitted : Event → Option Byte
  | .read _ => none
  | .write _ _ => none
  | .emit v => some v

end Sys2Proof.Claims

open Sys2Proof Sys2Proof.Machine Sys2Proof.Claims

/-! ### Encoding -/

/-- R92 and R95 agree, and no bit of an operand is dropped: every well-formed instruction, encoded under any opcode map R84 admits and followed by any bytes, decodes to itself and leaves those bytes. The CORE's own map is one of them. That the map may be any admissible one, and the CORE's values, are the spec's decision D1 (log entry 1). -/
def Obligations.DecodeOfEncodeIsIdentity : Prop :=
  opc.admissible = true ∧
  ∀ (m : OpcodeMap) (i : Instr) (rest : List Byte), m.admissible = true → i.WellFormed →
    decodeWith m (encodeWith m i ++ rest) = .ok (i, rest)

/-- Each byte sequence has at most one reading: whatever decodes is a well-formed instruction whose encoding stands at its head. It holds because the whole byte selects (R85, the spec's decision D2) and a register byte above 7 is refused (R90, D4) (log entry 2); the maps it ranges over are those D1 admits (R84, log entry 1). -/
def Obligations.EncodeOfDecodeIsIdentity : Prop :=
  ∀ (m : OpcodeMap) (bytes rest : List Byte) (i : Instr), m.admissible = true →
    decodeWith m bytes = .ok (i, rest) → i.WellFormed ∧ bytes = encodeWith m i ++ rest

/-- Words written out from R83 and R84 (table V1 of 95_test_vectors.md): they decode to the instruction they stand for, or are refused. The opcode values are the spec's decision D1 (log entry 1), the refusals D2, D3 and D4 (log entry 2). -/
def Obligations.WrittenOutWordsDecode : Prop :=
  decode [0b00000001] = .ok (.hlt, []) ∧
  decode [0b10000010, 0b00000011, 0b11111111] = .ok (.ldi 3 255, []) ∧
  decode [0b01000111, 0b00000111] = .ok (.prn 7, []) ∧
  decode [0b10100001, 0b00000001, 0b00000010] = .ok (.sub 1 2, []) ∧
  decode [0b01000110, 0b00000001] = .ok (.pop 1, []) ∧
  decode [0b01010000, 0b00000001] = .ok (.call 1, []) ∧
  decode [0b01010110, 0b00000100] = .ok (.jne 4, []) ∧
  decode [0x00] = .error .unknownOpcode ∧
  decode [0x41, 0x00] = .error .unknownOpcode ∧
  decode [0xC0] = .error .operandCountThree ∧
  decode [0xA0, 0x00, 0x08] = .error .badRegister ∧
  decode [0x47, 0xFF] = .error .badRegister

/-- R87, R85: exactly the fifteen bytes of R84 are opcodes; with any operand bytes after it no other byte decodes. The fifteen values are the spec's decision D1 (log entry 1), the whole-byte match D2 (log entry 2). -/
def Obligations.OnlyTheFifteenBytesAreOpcodes : Prop :=
  ∀ ir : Byte, (∃ (a b : Byte) (i : Instr) (rest : List Byte), decode [ir, a, b] = .ok (i, rest)) ↔ ir ∈ fifteenOpcodes

/-! ### The step -/

/-- A step runs the decoded instruction: when the bytes at the pc, within memory, decode to an instruction, it is well-formed and is the one the step executes; the pc still points at its opcode while it runs (R114), and nothing is added around it. -/
def Obligations.StepRunsDecodedInstruction : Prop :=
  ∀ (s : State) (bytes : List Byte) (i : Instr), s.Running → s.pc.toNat + bytes.length ≤ 256 →
    (∀ (k : Nat) (h : k < bytes.length), s.mem.read (s.pc.toNat + k) = bytes[k]) →
    decode bytes = .ok (i, []) →
    i.WellFormed ∧ current s = some i ∧ step s = exec i s

/-- R110, R211: a step exists exactly when the stop status is running, that is while `halted` is 0 and the latch is empty; where none exists the step answers that it does not exist. The stopped states are the spec's decision D21; that the answer is Outcome.fault is the model's choice (log entry 5). -/
def Obligations.StepExistsExactlyWhileRunning : Prop :=
  ∀ s : State,
    ((∃ t, step s = .next t) ↔ s.stopStatus = .running) ∧
    (s.stopStatus = .running ↔ s.halted = false ∧ s.fault = none) ∧
    (s.stopStatus = .normalEnd ↔ s.halted = true ∧ s.fault = none) ∧
    (∀ r, s.stopStatus = .fatalEnd r ↔ s.fault = some r) ∧
    (s.halted = true → step s = .fault .halted) ∧
    (∀ r, s.halted = false → s.fault = some r → step s = .fault (.faulted r))

/-- R118: the step is the spec's whole-step function, in every state whose pc is 0 to 256 (R25). R118 carries the spec's decisions D1 to D7, D10 to D16, D18, D19 and D23 (log entries 1 to 6, 9 to 13, 15, 16, 20). -/
def Obligations.StepIsTheWholeStepFunction : Prop :=
  ∀ s t : State, s.pc.toNat ≤ 256 → (step s = .next t ↔ reference s = some t)

/-- R205 clauses 1 to 5, with R111, R112, R87, R88, R90: the errors of fetch and dispatch, each where it is raised and with what the latch records. Their order and D2 to D5 are the spec's decisions D19, D2, D3, D4, D5 (log entries 16, 2, 3). -/
def Obligations.FetchAndDispatchErrors : Prop :=
  ∀ s : State, s.Running →
    let pc := s.pc.toNat
    let ir := s.mem.read pc
    let n := ir.toNat / 64
    (pc = 256 → step s = .next (boundsErrorAt none 256 s)) ∧
    (pc ≤ 255 → n = 3 → step s = .next (decodeErrorAt ir s)) ∧
    (pc = 255 → n = 1 ∨ n = 2 → step s = .next (boundsErrorAt (some ir) 256 s)) ∧
    (pc = 254 → n = 2 → step s = .next (boundsErrorAt (some ir) 256 s)) ∧
    (pc + n ≤ 255 → n ≠ 3 → ir ∉ fifteenOpcodes → step s = .next (decodeErrorAt ir s)) ∧
    (∀ p : Mnemonic, pc + n ≤ 255 → ir = opc p →
      ¬ (assemble p (s.mem.read (pc + 1)) (s.mem.read (pc + 2))).WellFormed → step s = .next (decodeErrorAt ir s))

/-- R207, R206: a step that raises an error changes nothing but the latch, whose record holds the pc of the faulting instruction, and leaves `halted` 0. Preciseness and the latch are the spec's decisions D6 and D7 (log entries 6, 4). -/
def Obligations.FaultsArePrecise : Prop :=
  ∀ s t : State, step s = .next t → t.fault ≠ none →
    t.halted = false ∧ ∃ r, t = { s with fault := some r } ∧ r.atPc = s.pc ∧ r.code = r.kind.code

/-- R203, at the step: the latch takes an ArithmeticError exactly when the instruction executed is a DIV whose divisor register holds 0; nothing else raises it. -/
def Obligations.ArithmeticErrorExactlyOnDivByZero : Prop :=
  ∀ s t : State, step s = .next t →
    ((∃ r, t.fault = some r ∧ r.kind = .arithmeticError) ↔
      ∃ a b : Reg, current s = some (.div (regByte a) (regByte b)) ∧ s.reg b = 0)

/-- Every form of every instruction raises the errors the spec lists for it, with the record it lists, in its order, and raises none elsewhere (R200 to R205): a register operand above 7, a zero divisor, a push at SP 0, a return address of 256, a pop on an empty stack. These are the spec's decisions D4, D10, D11, D15, D19 (log entries 2, 9, 16). -/
def Obligations.InstructionErrorsAreTheListedOnes : Prop :=
  ∀ (i : Instr) (s : State),
    (∀ t, erring i s = some t → exec i s = .next t) ∧
    (erring i s = none → ∃ t, exec i s = .next t ∧ t.fault = s.fault)

/-! ### Reset and boot -/

/-- R37: the reset values the source gives. -/
def Obligations.ResetRegistersPcAndHalt : Prop :=
  (∀ r : Reg, State.reset.reg r = if r = 7 then 0xF4 else 0) ∧ State.reset.pc = 0 ∧ State.reset.halted = false

/-- R38, R230, R231: reset, from any state, puts every element but memory at its reset value and leaves memory. The flags', the latch's and the output's reset values are the spec's decisions D8, D7, D18, reset itself D22 (log entries 7, 4, 15, 18). -/
def Obligations.ResetFromAnyState : Prop :=
  ∀ s : State,
    let t := applyReset s
    (∀ r : Reg, t.reg r = if r = 7 then 0xF4 else 0) ∧ t.pc = 0 ∧ t.fl = ⟨false, false, false⟩ ∧ t.halted = false ∧
      t.fault = none ∧ t.out = [] ∧ t.mem = s.mem ∧ t.Running

/-- R60, R39, R232: booting, from any state, an image of at most 256 bytes places byte `i` at address `i` and MEM_FILL elsewhere in the reset state; a longer image and an unreadable source are reported, and no state of a running core results; the first step of an empty image is a DecodeError on the byte 0x00. MEM_FILL and the refusal are the spec's decision D9, the unreadable source D26, reset D22 (log entries 8, 18). -/
def Obligations.BootPlacesTheImage : Prop :=
  ∀ s : State,
    boot .unreadable s = .error .unreadable ∧
    (∀ bytes : List Byte, 256 < bytes.length → boot (.image bytes) s = .error .imageTooLong) ∧
    (∀ bytes : List Byte, bytes.length ≤ 256 →
      ∃ t, boot (.image bytes) s = .ok t ∧ (∀ a, a < 256 → t.mem.read a = (bytes[a]?).getD 0) ∧
        { t with mem := [] } = State.reset ∧ t.Inv ∧ t.Running) ∧
    boot (.image []) s = .ok State.reset ∧
    step State.reset = .next (decodeErrorAt 0x00 State.reset)

/-! ### The invariant -/

/-- The reset state meets the invariant. -/
def Obligations.ResetMeetsInvariant : Prop := State.reset.Inv

/-- Every step keeps the invariant, from every state that meets it: the pc stays 0 to 256 (R27), the flags stay one of four values (R30), memory keeps its canonical form, the latch holds only a record R200 to R203 allow with the pc still at the faulting instruction (R207), and never together with `halted` (R211). -/
def Obligations.StepKeepsInvariant : Prop :=
  ∀ s t : State, s.Inv → step s = .next t → t.Inv

/-! ### What each instruction does and leaves alone -/

/-- HLT (R130): halted is set, the pc goes to the byte after it, nothing else changes, and no step follows. The pc's advance is the spec's decision D16 (log entry 13). -/
def Obligations.HltHaltsAndAdvances : Prop :=
  ∀ s : State, s.pc.toNat + 1 ≤ 256 →
    ∃ t, exec .hlt s = .next t ∧ t.halted = true ∧ t.pc.toNat = s.pc.toNat + 1 ∧
      RegistersKeptBut [] s t ∧ MemoryKept s t ∧ t.fl = s.fl ∧ t.fault = s.fault ∧ t.out = s.out ∧
      ∀ u, step t ≠ .next u

/-- LDI (R131): the register takes the immediate unchanged; register 7 is no exception. The immediate's treatment is the spec's decision D27, register 7 as an operand D13 (log entries 21, 11). -/
def Obligations.LdiLoadsTheImmediate : Prop :=
  ∀ (a : Reg) (v : Byte) (s : State), s.pc.toNat + 3 ≤ 256 →
    ∃ t, exec (.ldi (regByte a) v) s = .next t ∧ t.reg a = v ∧ t.pc.toNat = s.pc.toNat + 3 ∧
      RegistersKeptBut [a] s t ∧ MemoryKept s t ∧ StatusKept s t

/-- PRN (R132): the register's byte is appended to the output, and nothing else but the pc changes. The sink is the spec's decision D18 (log entry 15). -/
def Obligations.PrnEmitsTheRegister : Prop :=
  ∀ (a : Reg) (s : State), s.pc.toNat + 2 ≤ 256 →
    ∃ t, exec (.prn (regByte a)) s = .next t ∧ t.out = s.out ++ [s.reg a] ∧ t.pc.toNat = s.pc.toNat + 2 ∧
      RegistersKeptBut [] s t ∧ MemoryKept s t ∧ t.fl = s.fl ∧ t.halted = s.halted ∧ t.fault = s.fault

/-- R141, the arithmetic laws: ADD, SUB and MUL compute exactly and wrap modulo 256 into the first register operand, recording no overflow or borrow anywhere, and their low 8 bits do not depend on signedness; division is the floor quotient, and a divisor of 0 is the one arithmetic error of the ALU; CMP and DIV are unsigned, and on some operands differ from the signed reading. DIV's destination is not part of this statement. -/
def Obligations.AluArithmeticLaws : Prop :=
  (∀ (a b : Reg) (s : State),
    let x : Int := (s.reg a).toNat
    let y : Int := (s.reg b).toNat
    (∃ t, exec (.add (regByte a) (regByte b)) s = .next t ∧ ((t.reg a).toNat : Int) = (x + y) % 256 ∧
      t.reg a = BitVec.ofInt 8 ((s.reg a).toInt + (s.reg b).toInt) ∧
      RegistersKeptBut [a] s t ∧ MemoryKept s t ∧ StatusKept s t) ∧
    (∃ t, exec (.sub (regByte a) (regByte b)) s = .next t ∧ ((t.reg a).toNat : Int) = (x - y) % 256 ∧
      t.reg a = BitVec.ofInt 8 ((s.reg a).toInt - (s.reg b).toInt) ∧
      RegistersKeptBut [a] s t ∧ MemoryKept s t ∧ StatusKept s t) ∧
    (∃ t, exec (.mul (regByte a) (regByte b)) s = .next t ∧ ((t.reg a).toNat : Int) = (x * y) % 256 ∧
      t.reg a = BitVec.ofInt 8 ((s.reg a).toInt * (s.reg b).toInt) ∧
      RegistersKeptBut [a] s t ∧ MemoryKept s t ∧ StatusKept s t) ∧
    (∃ t, exec (.cmp (regByte a) (regByte b)) s = .next t ∧
      (t.fl.E = true ↔ x = y) ∧ (t.fl.G = true ↔ x > y) ∧ (t.fl.L = true ↔ x < y))) ∧
  (∀ (op : AluOp) (p q : Byte), alu op p q = .divideByZero ↔ op = .div ∧ q = 0) ∧
  (∀ p q : Byte, q ≠ 0 →
    ∃ v, alu .div p q = .value v ∧ v.toNat * q.toNat ≤ p.toNat ∧ p.toNat < (v.toNat + 1) * q.toNat) ∧
  (∃ p q v : Byte, alu .div p q = .value v ∧ v.toInt ≠ p.toInt / q.toInt) ∧
  (∃ p q : Byte, (compareFlags p q).G = true ∧ p.toInt < q.toInt)

/-- MUL, ADD and SUB (R142, R143, R144) change nothing but the first operand's register and the pc. -/
def Obligations.MulAddSubFrame : Prop :=
  ∀ (a b : Reg) (s : State) (i : Instr),
    i = .mul (regByte a) (regByte b) ∨ i = .add (regByte a) (regByte b) ∨ i = .sub (regByte a) (regByte b) →
    s.pc.toNat + 3 ≤ 256 →
    ∃ t, exec i s = .next t ∧ t.pc.toNat = s.pc.toNat + 3 ∧ RegistersKeptBut [a] s t ∧ MemoryKept s t ∧ StatusKept s t

/-- DIV (R145): with a divisor other than 0 the first operand's register takes the floor quotient and only it and the pc change; with a divisor of 0 the latch takes an ArithmeticError and nothing else changes. The destination is the spec's decision D14, preciseness D6 (log entries 12, 6). -/
def Obligations.DivDividesOrFaults : Prop :=
  ∀ (a b : Reg) (s : State), s.pc.toNat + 3 ≤ 256 →
    (s.reg b ≠ 0 → ∃ t, exec (.div (regByte a) (regByte b)) s = .next t ∧
      (t.reg a).toNat = (s.reg a).toNat / (s.reg b).toNat ∧ t.pc.toNat = s.pc.toNat + 3 ∧
      RegistersKeptBut [a] s t ∧ MemoryKept s t ∧ StatusKept s t) ∧
    (s.reg b = 0 → exec (.div (regByte a) (regByte b)) s = .next (arithmeticErrorAt 0xA3 s))

/-- CMP (R146): all three flags are written from the unsigned comparison, and nothing else but the pc changes. -/
def Obligations.CmpSetsAllThreeFlags : Prop :=
  ∀ (a b : Reg) (s : State), s.pc.toNat + 3 ≤ 256 →
    ∃ t, exec (.cmp (regByte a) (regByte b)) s = .next t ∧
      (t.fl.E = true ↔ (s.reg a).toNat = (s.reg b).toNat) ∧
      (t.fl.G = true ↔ (s.reg a).toNat > (s.reg b).toNat) ∧
      (t.fl.L = true ↔ (s.reg a).toNat < (s.reg b).toNat) ∧
      t.pc.toNat = s.pc.toNat + 3 ∧ RegistersKeptBut [] s t ∧ MemoryKept s t ∧
      t.halted = s.halted ∧ t.fault = s.fault ∧ t.out = s.out

/-- PUSH (R161, R160): where SP is not 0, SP is lowered by one and the register, read after that, is stored at the new SP; every other byte and register is as before. PUSH R7 stores the lowered SP: the spec's decision D12 (log entry 10). -/
def Obligations.PushStoresAtTheLoweredSp : Prop :=
  ∀ (a : Reg) (s : State), s.mem.wf = true → s.sp ≠ 0 → s.pc.toNat + 2 ≤ 256 →
    ∃ t, exec (.push (regByte a)) s = .next t ∧ t.sp.toNat = s.sp.toNat - 1 ∧
      t.mem.read (s.sp.toNat - 1) = (if a = 7 then s.sp - 1 else s.reg a) ∧
      MemoryKeptBut (s.sp.toNat - 1) s t ∧ RegistersKeptBut [7] s t ∧ t.pc.toNat = s.pc.toNat + 2 ∧ StatusKept s t

/-- POP (R162, R160): where SP is below STACK_TOP, the register takes the byte at SP, then SP is raised by one modulo 256; memory is as before. POP R7 ends with the popped byte plus one: the spec's decision D12 (log entry 10). -/
def Obligations.PopLoadsAndRaisesSp : Prop :=
  ∀ (a : Reg) (s : State), s.sp.toNat < 0xF4 → s.pc.toNat + 2 ≤ 256 →
    ∃ t, exec (.pop (regByte a)) s = .next t ∧
      (a ≠ 7 → t.reg a = s.mem.read s.sp.toNat ∧ t.sp.toNat = s.sp.toNat + 1) ∧
      (a = 7 → t.sp.toNat = ((s.mem.read s.sp.toNat).toNat + 1) % 256) ∧
      RegistersKeptBut [a, 7] s t ∧ MemoryKept s t ∧ t.pc.toNat = s.pc.toNat + 2 ∧ StatusKept s t

/-- CALL (R163): where SP is not 0 and the return address is an address, SP is lowered by one, the address of the byte after the CALL is stored at the new SP, and the pc takes the register, read after that. CALL R7 jumps to the lowered SP: the spec's decision D12 (log entry 10); the refused return address is D11 (log entry 9). -/
def Obligations.CallStoresReturnAddressAndJumps : Prop :=
  ∀ (a : Reg) (s : State), s.mem.wf = true → s.sp ≠ 0 → s.pc.toNat + 2 ≤ 255 →
    ∃ t, exec (.call (regByte a)) s = .next t ∧ t.sp.toNat = s.sp.toNat - 1 ∧
      (t.mem.read (s.sp.toNat - 1)).toNat = s.pc.toNat + 2 ∧
      t.pc.toNat = (if a = 7 then s.sp.toNat - 1 else (s.reg a).toNat) ∧
      MemoryKeptBut (s.sp.toNat - 1) s t ∧ RegistersKeptBut [7] s t ∧ StatusKept s t

/-- RET (R164): where SP is below STACK_TOP, the pc takes the byte at SP and SP is raised by one; nothing else changes. The test is the spec's decision D15 (log entry 9). -/
def Obligations.RetJumpsToThePoppedByte : Prop :=
  ∀ s : State, s.sp.toNat < 0xF4 →
    ∃ t, exec .ret s = .next t ∧ t.pc.toNat = (s.mem.read s.sp.toNat).toNat ∧ t.sp.toNat = s.sp.toNat + 1 ∧
      RegistersKeptBut [7] s t ∧ MemoryKept s t ∧ StatusKept s t

/-- JMP, JEQ and JNE (R181, R182, R183): the pc takes the register where the jump is taken (always; Equal set; Equal clear) and goes to the next instruction where it is not; nothing else changes, and JEQ and JNE are exact complements. -/
def Obligations.JumpsTakeTheRegisterOrFallThrough : Prop :=
  ∀ (a : Reg) (s : State), s.pc.toNat + 2 ≤ 256 →
    (∃ t, exec (.jmp (regByte a)) s = .next t ∧ t.pc.toNat = (s.reg a).toNat ∧
      RegistersKeptBut [] s t ∧ MemoryKept s t ∧ StatusKept s t) ∧
    (∃ t, exec (.jeq (regByte a)) s = .next t ∧
      t.pc.toNat = (if s.fl.E = true then (s.reg a).toNat else s.pc.toNat + 2) ∧
      RegistersKeptBut [] s t ∧ MemoryKept s t ∧ StatusKept s t) ∧
    (∃ t, exec (.jne (regByte a)) s = .next t ∧
      t.pc.toNat = (if s.fl.E = true then s.pc.toNat + 2 else (s.reg a).toNat) ∧
      RegistersKeptBut [] s t ∧ MemoryKept s t ∧ StatusKept s t)

/-! ### Whole-machine rules -/

/-- The frame of every form of every instruction, faulting or not (R20's "written by" column, R51, R13, R31): a register outside the destination, and outside SP for a stack instruction, is as before; only CMP changes flags, only HLT `halted`, only PRN the output; PUSH and CALL leave every byte but the one at the push address, and every byte where there is none; the others leave all of memory. -/
def Obligations.EveryInstructionFrame : Prop :=
  ∀ (i : Instr) (s t : State), exec i s = .next t →
    (∀ r : Reg, regByte r ∉ destinationBytes i → (usesStack i = true → r ≠ 7) → t.reg r = s.reg r) ∧
    (isCmp i = false → t.fl = s.fl) ∧
    (i ≠ .hlt → t.halted = s.halted) ∧
    ((∀ a, i ≠ .prn a) → t.out = s.out) ∧
    (storesByte i = false → MemoryKept s t) ∧
    (storesByte i = true → (∀ d, pushAddr s = .ok d → MemoryKeptBut d.toNat s t) ∧
      (∀ e, pushAddr s = .error e → MemoryKept s t))

/-- R28: after a CMP exactly one flag is set and the others are clear; every other instruction leaves the flags alone. -/
def Obligations.ExactlyOneFlagAfterCmp : Prop :=
  (∀ (a b : Reg) (s : State), ∃ t, exec (.cmp (regByte a) (regByte b)) s = .next t ∧
    ((t.fl.E = true ∧ t.fl.G = false ∧ t.fl.L = false) ∨ (t.fl.E = false ∧ t.fl.G = true ∧ t.fl.L = false) ∨
      (t.fl.E = false ∧ t.fl.G = false ∧ t.fl.L = true))) ∧
  (∀ (i : Instr) (s t : State), isCmp i = false → exec i s = .next t → t.fl = s.fl)

/-- R29: CMP is the only writer of the flags and writes all three at once, from the operands and not from the old flags; JEQ and JNE are the only readers and read only Equal; no instruction reads Greater or Less. Said by running one instruction from two states that differ in the flags alone. -/
def Obligations.FlagsWrittenByCmpReadByJeqJne : Prop :=
  ∀ (i : Instr) (s t : State) (f : Flags), exec i s = .next t →
    (t.fl ≠ s.fl → ∃ a b : Reg, i = .cmp (regByte a) (regByte b)) ∧
    (∀ a b : Reg, i = .cmp (regByte a) (regByte b) → exec i (s.setFlags f) = .next t) ∧
    ((∀ a b : Reg, i ≠ .cmp (regByte a) (regByte b)) →
      ((∃ a, i = .jeq a ∨ i = .jne a) → f.E = s.fl.E) → exec i (s.setFlags f) = .next (t.setFlags f))

/-- R31: HLT sets the halt flag and nothing but reset clears it; while it is 1 there is no step; it is 0 at reset; the host reads it in the stop status; no instruction reads it. -/
def Obligations.OnlyHltHalts : Prop :=
  (∀ (i : Instr) (s t : State), exec i s = .next t → (t.halted = true ↔ s.halted = true ∨ i = .hlt)) ∧
  (∀ s t : State, step s = .next t → (t.halted = true ↔ current s = some .hlt)) ∧
  (∀ s t : State, s.halted = true → step s ≠ .next t) ∧
  (∀ s : State, (applyReset s).halted = false) ∧
  (∀ s : State, s.fault = none → (s.stopStatus = .normalEnd ↔ s.halted = true)) ∧
  (∀ (i : Instr) (s t : State) (h : Bool), exec i s = .next t →
    exec i { s with halted := h } = .next { t with halted := h || decide (i = .hlt) })

/-- R13: Emit appends the register's byte to the output log, and only PRN uses it. That the log accepts every byte, so that PRN always completes, is the spec's decision D18 (log entry 15). -/
def Obligations.OnlyPrnEmits : Prop :=
  (∀ (a : Reg) (s : State), ∃ t, exec (.prn (regByte a)) s = .next t ∧ t.out = s.out ++ [s.reg a]) ∧
  (∀ s t : State, step s = .next t → t.out = s.out ∨ ∃ a : Reg, current s = some (.prn (regByte a)) ∧ t.out = s.out ++ [s.reg a])

/-- R56: a cell returns the last byte written to it, writing a cell changes no other cell and nothing else in the machine, in a memory of canonical form. -/
def Obligations.MemoryCellsHoldTheLastByteWritten : Prop :=
  ∀ (s : State) (a b v w : Byte), s.mem.wf = true →
    (s.store a v).load a = v ∧ ((s.store a v).store a w).load a = w ∧
    (b ≠ a → (s.store a v).load b = s.load b ∧ ((s.store a v).store b w).load a = v) ∧
    (s.store a (s.load a)) = s ∧ { s.store a v with mem := s.mem } = s

/-- R26, R27, at the step: an error leaves the pc; a transfer sets it to its target (the register; RET's popped byte) and it is not advanced after that; everything else moves it past the instruction, never wrapping. The pc's range is the spec's decision D5, the pc kept on an error D6, CALL's register read after its push D12 (it matters for CALL R7 alone), HLT's advance D16 (log entries 3, 6, 10, 13). -/
def Obligations.PcAfterAStep : Prop :=
  ∀ (s t : State), s.pc.toNat ≤ 256 → step s = .next t →
    (t.fault ≠ none → t.pc = s.pc) ∧
    (∀ i, t.fault = none → current s = some i →
      (transfers i s = false → t.pc.toNat = s.pc.toNat + (encode i).length ∧ t.pc.toNat ≤ 256) ∧
      (∀ a : Reg, transfers i s = true →
        i = .jmp (regByte a) ∨ i = .jeq (regByte a) ∨ i = .jne (regByte a) ∨ i = .call (regByte a) →
        t.pc.toNat = (t.reg a).toNat) ∧
      (i = .ret → t.pc.toNat = (s.mem.read s.sp.toNat).toNat))

/-- S3 of 95_test_vectors.md: PUSH then POP returns the pushed byte and restores SP, for every register pushed and popped but register 7, whatever was in them. Rests on D12 only for the excluded register (log entry 10). -/
def Obligations.PopAfterPushReturnsTheByte : Prop :=
  ∀ (a b : Reg) (s : State), s.mem.wf = true → a ≠ 7 → b ≠ 7 → s.sp ≠ 0 → s.sp.toNat ≤ 0xF4 →
    ∃ t u, exec (.push (regByte a)) s = .next t ∧ exec (.pop (regByte b)) t = .next u ∧
      u.reg b = s.reg a ∧ u.sp = s.sp ∧ RegistersKeptBut [b] s u

/-- S4 of 95_test_vectors.md: a RET that finds the stack as its CALL left it resumes at the instruction after the CALL with SP restored, whatever else the subroutine changed. -/
def Obligations.RetAfterCallResumes : Prop :=
  ∀ (a : Reg) (s : State), s.mem.wf = true → s.sp ≠ 0 → s.sp.toNat ≤ 0xF4 → s.pc.toNat + 2 ≤ 255 →
    ∃ t, exec (.call (regByte a)) s = .next t ∧
      ∀ u : State, u.sp = t.sp → u.mem.read u.sp.toNat = t.mem.read t.sp.toNat →
        ∃ v, exec .ret u = .next v ∧ v.pc.toNat = s.pc.toNat + 2 ∧ v.sp = s.sp

/-- R239, R211: the step that ends a run is a HLT, which leaves no error and the pc one past the HLT, or an error, which leaves `halted` 0; where a run has ended, running on holds the state. The HLT's pc is the spec's decision D16 (log entry 13). -/
def Obligations.RunsEndByHltOrError : Prop :=
  (∀ s t : State, s.pc.toNat ≤ 256 → step s = .next t → ¬ t.Running →
    (t.stopStatus = .normalEnd ∧ current s = some .hlt ∧ t.pc.toNat = s.pc.toNat + 1) ∨
    (∃ r, t.stopStatus = .fatalEnd r ∧ t.halted = false ∧ t = { s with fault := some r })) ∧
  (∀ (s : State) (k : Nat), ¬ s.Running → runFor k s = s) ∧
  (∀ (s : State) (j k : Nat), runFor (j + k) s = runFor k (runFor j s))

/-- R117: a run that never ends contains, within its first 257 steps, a control transfer (JMP, CALL, RET, a taken JEQ or JNE) to an address at or below its own. The spec marks this as derived; it rests on the pc not wrapping, D5 (log entry 3). -/
def Obligations.EndlessRunHasABackwardTransfer : Prop :=
  ∀ s : State, s.Inv → (∀ k, (runFor k s).Running) →
    ∃ (k : Nat) (i : Instr), k ≤ 256 ∧ current (runFor k s) = some i ∧ transfers i (runFor k s) = true ∧
      (runFor (k + 1) s).pc.toNat ≤ (runFor k s).pc.toNat

/-! ### The event history -/

/-- R68, R51, R59, R88: a step's events are the reads its fetch makes, ascending from the pc, exactly as many as `fetchReads` says and none past address 255; then the instruction's own access, made exactly when the instruction completes: one write at SP - 1 by PUSH and CALL, one read at SP by POP and RET, one emit by PRN, none by any other. A step that faults records the reads before the fault and nothing after. The events are a function the model adds beside the state (log entry 19); the wrap-free pc, the count 3 and the order of the errors are the spec's decisions D5, D3, D19 (log entries 3, 2, 16), the interface D20 (log entry 17). -/
def Obligations.EventsOfAStepInOrder : Prop :=
  ∀ s : State, ∃ own : List Event,
    stepEvents s = (List.range (fetchReads s)).map (fun j => .read (BitVec.ofNat 8 (s.pc.toNat + j))) ++ own ∧
    (∀ j, j < fetchReads s → s.pc.toNat + j ≤ 255) ∧
    (∀ bytes, s.Running → fetch s = .ok bytes → fetchReads s = bytes.length) ∧
    (current s = none → own = []) ∧
    (∀ i, current s = some i → fetchReads s = (encode i).length) ∧
    (∀ t, step s = .next t → t.fault ≠ none → own = []) ∧
    (∀ i t, current s = some i → step s = .next t → t.fault = none →
      (storesByte i = true → s.sp ≠ 0 ∧ ∃ v, own = [.write (s.sp - 1) v]) ∧
      ((i = .ret ∨ ∃ a, i = .pop a) → s.sp.toNat < 0xF4 ∧ own = [.read s.sp]) ∧
      (∀ a, i = .prn a → ∃ r : Reg, a = regByte r ∧ own = [.emit (s.reg r)]) ∧
      (storesByte i = false → i ≠ .ret → (∀ a, i ≠ .pop a) → (∀ a, i ≠ .prn a) → own = []))

/-- R68, R51: the events tell the truth about what a step changes: the bytes of memory that change are the ones written, with the bytes recorded, and the output grows by what was emitted. -/
def Obligations.EventsTellWritesAndOutput : Prop :=
  ∀ s t : State, s.mem.wf = true → step s = .next t →
    (∀ a v, .write a v ∈ stepEvents s → t.mem.read a.toNat = v) ∧
    (∀ n, (∀ a v, .write a v ∈ stepEvents s → n ≠ a.toNat) → t.mem.read n = s.mem.read n) ∧
    t.out = s.out ++ (stepEvents s).filterMap emitted

/-- R51, R68: the events tell the truth about what a step reads: with any other memory that agrees on the bytes the events read, the step does the same, memory aside, and records the same events. -/
def Obligations.StepReadsOnlyWhatItsEventsSay : Prop :=
  ∀ (s t : State) (m : Memory), step s = .next t →
    (∀ a, .read a ∈ stepEvents s → m.read a.toNat = s.mem.read a.toNat) →
    stepEvents { s with mem := m } = stepEvents s ∧
    ∃ m', step { s with mem := m } = .next { t with mem := m' }

/-- R64: a byte a step writes is seen by the very next fetch: where the next step fetches its opcode at the address just written, the bytes it fetches begin with the byte written, or its error records that byte as the opcode. Immediate visibility is the spec's decision D20 (log entry 17). -/
def Obligations.NextFetchSeesTheByteWritten : Prop :=
  ∀ (s t : State) (a v : Byte), s.mem.wf = true → step s = .next t → .write a v ∈ stepEvents s →
    t.pc.toNat = a.toNat →
    (∃ bytes, fetch t = .ok bytes ∧ bytes.head? = some v) ∨ (∃ r, fetch t = .error r ∧ r.ir = some v)
end

