-- ==== Sys2Proof/Laws/Boot.lean ====
section
/-! SUPPORT. All that loading and booting can do. -/

namespace Sys2Proof.Laws

open Sys2Proof.Machine

theorem boot_unreadable (s : State) : boot .unreadable s = .error .unreadable := rfl

/-- Booting an image: the reset state with the image stored from address 0, or the refusal of one over 256 bytes. -/
theorem boot_image (bytes : List Byte) (s : State) :
    boot (.image bytes) s =
      if bytes.length ≤ 256 then .ok { State.reset with mem := storeBytes bytes 0 [] } else .error .imageTooLong := by
  simp only [boot, load, Config.memSize]
  by_cases h : bytes.length ≤ 256 <;> simp only [h, if_true, if_false] <;> rfl

end Sys2Proof.Laws
end

