-- ==== Sys2Proof/Laws/Decode.lean ====
section
/-! SUPPORT. Lemmas about the opcode map, the decoder and the encoder. -/

namespace Sys2Proof.Laws

/-- Every name is in the list of names. -/
theorem mem_all (p : Mnemonic) : p ∈ Mnemonic.all := by cases p <;> decide

/-- The bits 7:6 of an admissible map's opcode are the operand count. -/
theorem admissible_count {m : OpcodeMap} (h : m.admissible = true) (p : Mnemonic) : countField (m p) = p.operandCount := by
  have := List.all_eq_true.mp h p (mem_all p)
  simp only [Bool.and_eq_true, beq_iff_eq] at this
  exact this.1

/-- An admissible map gives different instructions different opcodes. -/
theorem admissible_injective {m : OpcodeMap} (h : m.admissible = true) {p q : Mnemonic} (e : m p = m q) : p = q := by
  have := List.all_eq_true.mp h p (mem_all p)
  simp only [Bool.and_eq_true, beq_iff_eq] at this
  have := List.all_eq_true.mp this.2 q (mem_all q)
  simpa [e] using this

/-- The opcode map of the CORE meets what R84 asks of a map. -/
theorem opc_admissible : opc.admissible = true := by decide

/-- The map found for a byte has that byte as its opcode. -/
theorem mnemonicOf_some {m : OpcodeMap} {ir : Byte} {p : Mnemonic} (h : mnemonicOf m ir = some p) : m p = ir := by
  simpa using List.find?_some h

/-- Under an admissible map an opcode is found as its own instruction. -/
theorem mnemonicOf_self {m : OpcodeMap} (h : m.admissible = true) (p : Mnemonic) : mnemonicOf m (m p) = some p := by
  rcases hq : mnemonicOf m (m p) with _ | q
  · have := List.find?_eq_none.mp hq p (mem_all p)
    simp at this
  · rw [admissible_injective h (mnemonicOf_some hq)]

/-- The number of operand bytes of an instruction is its operand count. -/
theorem operandBytes_length (i : Instr) : i.operandBytes.length = i.mnemonic.operandCount := by
  cases i <;> rfl

/-- An instruction is put together from its own operand bytes. -/
theorem assemble_mnemonic (p : Mnemonic) (a b : Byte) : (assemble p a b).mnemonic = p := by
  cases p <;> rfl

/-- No instruction has more than two operand bytes (MAX_OPERANDS, R7). -/
theorem operandCount_le (m : Mnemonic) : m.operandCount ≤ 2 := by cases m <;> decide

/-- What the operand decoder accepts: the opcode's own instruction with the operands given, and well-formed. -/
theorem decodeOperands_ok {m : OpcodeMap} {ir a b : Byte} {i : Instr} (h : decodeOperands m ir a b = .ok i) :
    i = assemble i.mnemonic a b ∧ m i.mnemonic = ir ∧ i.WellFormed := by
  unfold decodeOperands at h
  split at h
  · cases h
  · next p hp =>
    split at h
    · next hw =>
      cases h
      rw [assemble_mnemonic]
      exact ⟨rfl, mnemonicOf_some hp, hw⟩
    · cases h

/-- What the decoder accepts is well-formed. -/
theorem decodeWith_wellFormed {m : OpcodeMap} {bytes rest : List Byte} {i : Instr}
    (h : decodeWith m bytes = .ok (i, rest)) : i.WellFormed := by
  have key : ∀ {ir a b : Byte} {r : List Byte},
      (decodeOperands m ir a b).map (·, r) = .ok (i, rest) → i.WellFormed := by
    intro ir a b r h
    rcases hd : decodeOperands m ir a b with e | j
    · rw [hd] at h; cases h
    · rw [hd] at h
      cases h
      exact (decodeOperands_ok hd).2.2
  unfold decodeWith at h
  split at h
  · cases h
  · split at h
    all_goals first | exact key h | cases h

end Sys2Proof.Laws
end

