-- ==== Sys2Proof/Laws/State.lean ====
section
/-! SUPPORT. One lemma per field per update of the state, and the register file's laws. -/

namespace Sys2Proof.Laws

open Sys2Proof.Machine

variable (s : State)

@[simp] theorem setReg_pc (i : Reg) (v : Byte) : (s.setReg i v).pc = s.pc := rfl
@[simp] theorem setReg_fl (i : Reg) (v : Byte) : (s.setReg i v).fl = s.fl := rfl
@[simp] theorem setReg_halted (i : Reg) (v : Byte) : (s.setReg i v).halted = s.halted := rfl
@[simp] theorem setReg_fault (i : Reg) (v : Byte) : (s.setReg i v).fault = s.fault := rfl
@[simp] theorem setReg_out (i : Reg) (v : Byte) : (s.setReg i v).out = s.out := rfl
@[simp] theorem setReg_mem (i : Reg) (v : Byte) : (s.setReg i v).mem = s.mem := rfl
@[simp] theorem setReg_load (i : Reg) (v : Byte) (d : Byte) : (s.setReg i v).load d = s.load d := rfl

@[simp] theorem store_regs (a v : Byte) : (s.store a v).regs = s.regs := rfl
@[simp] theorem store_pc (a v : Byte) : (s.store a v).pc = s.pc := rfl
@[simp] theorem store_fl (a v : Byte) : (s.store a v).fl = s.fl := rfl
@[simp] theorem store_halted (a v : Byte) : (s.store a v).halted = s.halted := rfl
@[simp] theorem store_fault (a v : Byte) : (s.store a v).fault = s.fault := rfl
@[simp] theorem store_out (a v : Byte) : (s.store a v).out = s.out := rfl
@[simp] theorem store_mem (a v : Byte) : (s.store a v).mem = s.mem.write a.toNat v := rfl
@[simp] theorem store_reg (a v : Byte) (r : Reg) : (s.store a v).reg r = s.reg r := rfl
@[simp] theorem store_sp (a v : Byte) : (s.store a v).sp = s.sp := rfl

@[simp] theorem setFlags_regs (f : Flags) : (s.setFlags f).regs = s.regs := rfl
@[simp] theorem setFlags_pc (f : Flags) : (s.setFlags f).pc = s.pc := rfl
@[simp] theorem setFlags_fl (f : Flags) : (s.setFlags f).fl = f := rfl
@[simp] theorem setFlags_halted (f : Flags) : (s.setFlags f).halted = s.halted := rfl
@[simp] theorem setFlags_fault (f : Flags) : (s.setFlags f).fault = s.fault := rfl
@[simp] theorem setFlags_out (f : Flags) : (s.setFlags f).out = s.out := rfl
@[simp] theorem setFlags_mem (f : Flags) : (s.setFlags f).mem = s.mem := rfl
@[simp] theorem setFlags_reg (f : Flags) (r : Reg) : (s.setFlags f).reg r = s.reg r := rfl
@[simp] theorem setFlags_sp (f : Flags) : (s.setFlags f).sp = s.sp := rfl
@[simp] theorem setFlags_load (f : Flags) (d : Byte) : (s.setFlags f).load d = s.load d := rfl

@[simp] theorem emit_regs (v : Byte) : (s.emit v).regs = s.regs := rfl
@[simp] theorem emit_pc (v : Byte) : (s.emit v).pc = s.pc := rfl
@[simp] theorem emit_fl (v : Byte) : (s.emit v).fl = s.fl := rfl
@[simp] theorem emit_halted (v : Byte) : (s.emit v).halted = s.halted := rfl
@[simp] theorem emit_fault (v : Byte) : (s.emit v).fault = s.fault := rfl
@[simp] theorem emit_out (v : Byte) : (s.emit v).out = s.out ++ [v] := rfl
@[simp] theorem emit_mem (v : Byte) : (s.emit v).mem = s.mem := rfl
@[simp] theorem emit_reg (v : Byte) (r : Reg) : (s.emit v).reg r = s.reg r := rfl
@[simp] theorem emit_sp (v : Byte) : (s.emit v).sp = s.sp := rfl
@[simp] theorem emit_load (v : Byte) (d : Byte) : (s.emit v).load d = s.load d := rfl

@[simp] theorem setHalted_regs : (s.setHalted).regs = s.regs := rfl
@[simp] theorem setHalted_pc : (s.setHalted).pc = s.pc := rfl
@[simp] theorem setHalted_fl : (s.setHalted).fl = s.fl := rfl
@[simp] theorem setHalted_halted : (s.setHalted).halted = true := rfl
@[simp] theorem setHalted_fault : (s.setHalted).fault = s.fault := rfl
@[simp] theorem setHalted_out : (s.setHalted).out = s.out := rfl
@[simp] theorem setHalted_mem : (s.setHalted).mem = s.mem := rfl
@[simp] theorem setHalted_reg (r : Reg) : (s.setHalted).reg r = s.reg r := rfl
@[simp] theorem setHalted_sp : (s.setHalted).sp = s.sp := rfl
@[simp] theorem setHalted_load (d : Byte) : (s.setHalted).load d = s.load d := rfl

@[simp] theorem jumpTo_regs (v : Byte) : (s.jumpTo v).regs = s.regs := rfl
@[simp] theorem jumpTo_pc (v : Byte) : (s.jumpTo v).pc = v.zeroExtend 9 := rfl
@[simp] theorem jumpTo_fl (v : Byte) : (s.jumpTo v).fl = s.fl := rfl
@[simp] theorem jumpTo_halted (v : Byte) : (s.jumpTo v).halted = s.halted := rfl
@[simp] theorem jumpTo_fault (v : Byte) : (s.jumpTo v).fault = s.fault := rfl
@[simp] theorem jumpTo_out (v : Byte) : (s.jumpTo v).out = s.out := rfl
@[simp] theorem jumpTo_mem (v : Byte) : (s.jumpTo v).mem = s.mem := rfl
@[simp] theorem jumpTo_reg (v : Byte) (r : Reg) : (s.jumpTo v).reg r = s.reg r := rfl
@[simp] theorem jumpTo_sp (v : Byte) : (s.jumpTo v).sp = s.sp := rfl
@[simp] theorem jumpTo_load (v : Byte) (d : Byte) : (s.jumpTo v).load d = s.load d := rfl

@[simp] theorem advance_regs (m : Mnemonic) : (s.advance m).regs = s.regs := rfl
@[simp] theorem advance_pc (m : Mnemonic) : (s.advance m).pc = BitVec.ofNat 9 (s.next m) := rfl
@[simp] theorem advance_fl (m : Mnemonic) : (s.advance m).fl = s.fl := rfl
@[simp] theorem advance_halted (m : Mnemonic) : (s.advance m).halted = s.halted := rfl
@[simp] theorem advance_fault (m : Mnemonic) : (s.advance m).fault = s.fault := rfl
@[simp] theorem advance_out (m : Mnemonic) : (s.advance m).out = s.out := rfl
@[simp] theorem advance_mem (m : Mnemonic) : (s.advance m).mem = s.mem := rfl
@[simp] theorem advance_reg (m : Mnemonic) (r : Reg) : (s.advance m).reg r = s.reg r := rfl
@[simp] theorem advance_sp (m : Mnemonic) : (s.advance m).sp = s.sp := rfl
@[simp] theorem advance_load (m : Mnemonic) (d : Byte) : (s.advance m).load d = s.load d := rfl

@[simp] theorem takeFault_regs (r : FaultRecord) : (takeFault r s).regs = s.regs := rfl
@[simp] theorem takeFault_pc (r : FaultRecord) : (takeFault r s).pc = s.pc := rfl
@[simp] theorem takeFault_fl (r : FaultRecord) : (takeFault r s).fl = s.fl := rfl
@[simp] theorem takeFault_halted (r : FaultRecord) : (takeFault r s).halted = s.halted := rfl
@[simp] theorem takeFault_fault (r : FaultRecord) : (takeFault r s).fault = some r := rfl
@[simp] theorem takeFault_out (r : FaultRecord) : (takeFault r s).out = s.out := rfl
@[simp] theorem takeFault_mem (r : FaultRecord) : (takeFault r s).mem = s.mem := rfl
@[simp] theorem takeFault_reg (r : FaultRecord) (i : Reg) : (takeFault r s).reg i = s.reg i := rfl
@[simp] theorem takeFault_sp (r : FaultRecord) : (takeFault r s).sp = s.sp := rfl
@[simp] theorem takeFault_load (r : FaultRecord) (d : Byte) : (takeFault r s).load d = s.load d := rfl

/-- The register written reads as the value written. -/
@[simp] theorem setReg_reg_same (i : Reg) (v : Byte) : (s.setReg i v).reg i = v := by
  simp [State.reg, State.setReg]

/-- Every other register is unchanged by a register write. -/
@[simp] theorem setReg_reg_ne (i j : Reg) (v : Byte) (h : j ≠ i) : (s.setReg i v).reg j = s.reg j := by
  simp [State.reg, State.setReg, Fin.val_ne_of_ne h.symm]

/-- A register read after a register write. -/
theorem setReg_reg (i j : Reg) (v : Byte) : (s.setReg i v).reg j = if j = i then v else s.reg j := by
  by_cases h : j = i
  · subst h; simp
  · simp [h]

/-- Two states with the same registers and the same other fields are equal. -/
theorem state_ext {s t : State} (hr : ∀ i, s.reg i = t.reg i) (hpc : s.pc = t.pc) (hfl : s.fl = t.fl)
    (hh : s.halted = t.halted) (hf : s.fault = t.fault) (ho : s.out = t.out) (hm : s.mem = t.mem) : s = t := by
  have h : s.regs = t.regs := by
    ext1 i hi
    exact hr ⟨i, hi⟩
  cases s; cases t; simp_all

end Sys2Proof.Laws
end

