-- ==== Sys2Proof/Laws/Memory.lean ====
section
/-! SUPPORT. The laws of memory: reading after writing, and that every operation keeps the canonical form. -/

namespace Sys2Proof.Laws

open Sys2Proof.Machine

/-- A well-formed memory from `lo` lists no address below `lo`. -/
theorem read_below {m : Memory} {lo a : Nat} (h : m.wfFrom lo = true) (ha : a < lo) : m.read a = Config.memFill := by
  induction m generalizing lo with
  | nil => rfl
  | cons c m ih =>
    obtain ⟨k, v⟩ := c
    simp only [Memory.wfFrom, Bool.and_eq_true, decide_eq_true_eq, bne_iff_ne] at h
    obtain ⟨⟨⟨hlo, -⟩, -⟩, hm⟩ := h
    rw [Memory.read, if_neg (by omega)]
    exact ih hm (by omega)

/-- Being well-formed from `lo` is being well-formed from anything lower. -/
theorem wfFrom_mono {m : Memory} {lo hi : Nat} (h : m.wfFrom hi = true) (hl : lo ≤ hi) : m.wfFrom lo = true := by
  cases m with
  | nil => rfl
  | cons c m =>
    simp only [Memory.wfFrom, Bool.and_eq_true, decide_eq_true_eq, bne_iff_ne] at h ⊢
    exact ⟨⟨⟨by omega, h.1.1.2⟩, h.1.2⟩, h.2⟩

/-- A write leaves every other cell alone. -/
@[simp] theorem read_write_ne (m : Memory) (a b : Nat) (v : Byte) (h : b ≠ a) : (m.write a v).read b = m.read b := by
  induction m with
  | nil =>
    unfold Memory.write
    split <;> simp [Memory.read, h]
  | cons c m ih =>
    obtain ⟨k, w⟩ := c
    unfold Memory.write
    split
    · split <;> simp [Memory.read, h]
    · split
      · subst a; split <;> simp [Memory.read, h]
      · simp [Memory.read, ih]

/-- The cell written reads as the byte written. -/
theorem read_write_same_from {m : Memory} {lo : Nat} (hm : m.wfFrom lo = true) (a : Nat) (v : Byte) :
    (m.write a v).read a = v := by
  induction m generalizing lo with
  | nil =>
    unfold Memory.write
    split <;> simp_all [Memory.read]
  | cons c m ih =>
    obtain ⟨k, w⟩ := c
    have hm' := hm
    simp only [Memory.wfFrom, Bool.and_eq_true, decide_eq_true_eq, bne_iff_ne] at hm
    unfold Memory.write
    split
    next hlt =>
      split
      next hv => rw [Memory.read, if_neg (by omega), read_below hm.2 (by omega), hv]
      next => simp [Memory.read]
    next hlt =>
      split
      next heq =>
        split
        next hv => rw [read_below hm.2 (by omega), hv]
        next => simp [Memory.read]
      next hne => rw [Memory.read, if_neg hne]; exact ih hm.2

/-- The cell written reads as the byte written, in a memory of canonical form. -/
theorem read_write_same {m : Memory} (hm : m.wf = true) (a : Nat) (v : Byte) : (m.write a v).read a = v :=
  read_write_same_from hm a v

/-- A read after a write, in a memory of canonical form. -/
theorem read_write {m : Memory} (hm : m.wf = true) (a b : Nat) (v : Byte) :
    (m.write a v).read b = if b = a then v else m.read b := by
  by_cases h : b = a
  · subst h; simp [read_write_same hm]
  · simp [h]

/-- Writing keeps the canonical form from any bound at or below the address. -/
theorem write_wfFrom {m : Memory} {lo a : Nat} (v : Byte) (hm : m.wfFrom lo = true) (hlo : lo ≤ a) (ha : a < 256) :
    (m.write a v).wfFrom lo = true := by
  induction m generalizing lo with
  | nil =>
    unfold Memory.write
    split
    · rfl
    · simp [Memory.wfFrom, Config.memSize, *]
  | cons c m ih =>
    obtain ⟨k, w⟩ := c
    have hm' := hm
    simp only [Memory.wfFrom, Bool.and_eq_true, decide_eq_true_eq, bne_iff_ne] at hm
    unfold Memory.write
    split
    · split
      · exact hm'
      · simp_all [Memory.wfFrom, Config.memSize]
    · split
      · split
        · exact wfFrom_mono hm.2 (by omega)
        · simp_all [Memory.wfFrom, Config.memSize]
      · have := ih hm.2 (by omega)
        simp_all [Memory.wfFrom, Config.memSize]

/-- Writing a cell of the address space keeps the canonical form. -/
theorem write_wf {m : Memory} {a : Nat} (v : Byte) (hm : m.wf = true) (ha : a < 256) : (m.write a v).wf = true :=
  write_wfFrom v hm (Nat.zero_le a) ha

/-- The write transaction keeps the canonical form. -/
theorem store_wf {s : State} (a v : Byte) (hm : s.mem.wf = true) : (s.store a v).mem.wf = true :=
  write_wf v hm a.isLt

/-- A load after a store, in a state whose memory has its canonical form. -/
theorem store_load {s : State} (hm : s.mem.wf = true) (a b v : Byte) :
    (s.store a v).load b = if b = a then v else s.load b := by
  simp only [State.load, store_mem, read_write hm]
  by_cases h : b = a
  · subst h; simp
  · simp [h, BitVec.toNat_inj]

/-- The reset memory has its canonical form. -/
theorem reset_mem_wf : State.reset.mem.wf = true := rfl

/-- Storing bytes keeps the canonical form. -/
theorem storeBytes_wf {m : Memory} (bs : List Byte) (a : Nat) (hm : m.wf = true) : (storeBytes bs a m).wf = true := by
  induction bs generalizing a m with
  | nil => exact hm
  | cons b bs ih =>
    unfold storeBytes
    apply ih
    split
    · exact write_wf b hm (by assumption)
    · exact hm

/-- What a cell reads as after bytes were stored from `a` upward. -/
theorem read_storeBytes {m : Memory} (bs : List Byte) (a c : Nat) (hm : m.wf = true) (hc : c < 256) :
    (storeBytes bs a m).read c = if h : a ≤ c ∧ c < a + bs.length then bs[c - a]'(by omega) else m.read c := by
  induction bs generalizing a m with
  | nil => simp [storeBytes]
  | cons b bs ih =>
    unfold storeBytes
    have hm₁ : (if a < Config.memSize then m.write a b else m).wf = true := by
      split
      · exact write_wf b hm (by assumption)
      · exact hm
    rw [ih (a + 1) hm₁]
    by_cases hca : c = a
    · subst hca
      rw [dif_neg (by omega), dif_pos (by simp), if_pos (by simpa [Config.memSize] using hc)]
      simp [read_write_same hm]
    · have hr : (if a < Config.memSize then m.write a b else m).read c = m.read c := by
        split <;> simp [hca]
      rw [hr]
      by_cases h : a + 1 ≤ c ∧ c < a + 1 + bs.length
      · rw [dif_pos h, dif_pos (by simp; omega), List.getElem_cons, dif_neg (by omega)]
        congr 1
      · rw [dif_neg h, dif_neg (by simp; omega)]

/-- Two memories of canonical form that read the same everywhere are the same list. -/
theorem mem_ext_from {m n : Memory} {lo : Nat} (hm : m.wfFrom lo = true) (hn : n.wfFrom lo = true)
    (h : ∀ a, m.read a = n.read a) : m = n := by
  induction m generalizing n lo with
  | nil =>
    cases n with
    | nil => rfl
    | cons c n =>
      obtain ⟨k, w⟩ := c
      have := h k
      simp_all [Memory.read, Memory.wfFrom]
  | cons c m ih =>
    obtain ⟨k, v⟩ := c
    simp only [Memory.wfFrom, Bool.and_eq_true, decide_eq_true_eq, bne_iff_ne] at hm
    cases n with
    | nil =>
      have := h k
      simp_all [Memory.read]
    | cons d n =>
      obtain ⟨j, w⟩ := d
      simp only [Memory.wfFrom, Bool.and_eq_true, decide_eq_true_eq, bne_iff_ne] at hn
      have hk := h k
      have hj := h j
      simp only [Memory.read, if_true] at hk hj
      have hkj : k = j := by
        rcases Nat.lt_trichotomy k j with hlt | heq | hgt
        · rw [if_neg (by omega), read_below hn.2 (by omega)] at hk
          exact absurd hk hm.1.2
        · exact heq
        · rw [if_neg (by omega), read_below hm.2 (by omega)] at hj
          exact absurd hj.symm hn.1.2
      subst hkj
      simp only [if_true] at hk
      subst hk
      congr 1
      refine ih hm.2 hn.2 fun a => ?_
      have ha := h a
      by_cases hak : a = k
      · subst hak; rw [read_below hm.2 (by omega), read_below hn.2 (by omega)]
      · simpa [Memory.read, hak] using ha

/-- Equal memories are equal data. -/
theorem mem_ext {m n : Memory} (hm : m.wf = true) (hn : n.wf = true) (h : ∀ a, m.read a = n.read a) : m = n :=
  mem_ext_from hm hn h

end Sys2Proof.Laws
end

