-- ==== Sys2Proof/Laws/Ops.lean ====
section
/-! SUPPORT. For each shared operation, one lemma that says all it can do. -/

namespace Sys2Proof.Laws

open Sys2Proof.Machine

/-- A register's own operand byte names it. -/
@[simp] theorem regIndex?_regByte (i : Reg) : regIndex? (regByte i) = some i := by
  revert i; decide

/-- A byte names a register exactly when it is that register's operand byte. -/
theorem regIndex?_eq_some {r : Byte} {i : Reg} : regIndex? r = some i ↔ r = regByte i := by
  constructor
  · intro h
    unfold regIndex? at h
    split at h
    · cases h
      simp [regByte]
    · cases h
  · rintro rfl; simp

/-- A byte names no register exactly when the well-formedness check refuses it. -/
theorem regIndex?_eq_none {r : Byte} : regIndex? r = none ↔ namesRegister r = false := by
  simp [regIndex?, namesRegister]

/-- A byte either is some register's operand byte or fails the check. -/
theorem regByte_or_bad (r : Byte) : (∃ i, r = regByte i) ∨ namesRegister r = false := by
  rcases h : regIndex? r with _ | i
  · exact .inr (regIndex?_eq_none.mp h)
  · exact .inl ⟨i, regIndex?_eq_some.mp h⟩

@[simp] theorem namesRegister_regByte (i : Reg) : namesRegister (regByte i) = true := by
  revert i; decide

/-- Distinct registers have distinct operand bytes. -/
theorem regByte_injective {i j : Reg} (h : regByte i = regByte j) : i = j := by
  simpa using congrArg regIndex? h

@[simp] theorem withReg_regByte (m : Mnemonic) (i : Reg) (s : State) (k : Reg → Result) :
    withReg m (regByte i) s k = k i := by
  simp [withReg]

theorem withReg_bad {m : Mnemonic} {r : Byte} {s : State} {k : Reg → Result} (h : namesRegister r = false) :
    withReg m r s k = raiseDecode m s := by
  simp [withReg, regIndex?_eq_none.mpr h]

/-- The bounds test passes exactly the integers 0 to 255. -/
theorem checkAddr_nat (a : Nat) : checkAddr (a : Int) = if a ≤ 255 then .ok (BitVec.ofNat 8 a) else .error (a : Int) := by
  unfold checkAddr
  by_cases h : a ≤ 255
  · rw [if_pos (by omega), if_pos h]
    congr 1
  · rw [if_neg (by omega), if_neg h]

/-- The push address: -1 is refused, every other SP is lowered by one. -/
theorem pushAddr_eq (s : State) : pushAddr s = if s.sp = 0 then .error (-1) else .ok (s.sp - 1) := by
  unfold pushAddr checkAddr
  by_cases h : s.sp = 0
  · simp [h]
  · have h0 : s.sp.toNat ≠ 0 := fun hc => h (BitVec.toNat_inj.mp (by simpa using hc))
    rw [if_pos (by have := s.sp.isLt; omega), if_neg h]
    congr 1
    apply BitVec.eq_of_toNat_eq
    have := s.sp.isLt
    simp only [BitVec.toNat_ofInt, BitVec.toNat_sub]
    simp
    omega

/-- The pop address: SP itself, refused from STACK_TOP up. -/
theorem popAddr_eq (s : State) : popAddr s = if 244 ≤ s.sp.toNat then .error (s.sp.toNat : Int) else .ok s.sp := rfl

theorem regs_eq_of_reg {s t : State} (h : ∀ i, s.reg i = t.reg i) : s.regs = t.regs := by
  ext1 i hi
  exact h ⟨i, hi⟩

/-- A jump's target is the byte's own number: no bit is added or lost. -/
theorem jumpTo_pc_toNat (s : State) (v : Byte) : (s.jumpTo v).pc.toNat = v.toNat := by
  have := v.isLt
  simp [BitVec.toNat_setWidth]; omega

/-- Where the instruction ends at or below the end of memory, the pc takes the integer `next` unreduced (R27). -/
theorem advance_pc_toNat {s : State} {m : Mnemonic} (h : s.next m ≤ 256) : (s.advance m).pc.toNat = s.next m := by
  simp [BitVec.toNat_ofNat]; omega

/-- Raising an error answers the state with the latch set and nothing else changed. -/
theorem raise_eq (k : ErrorKind) (ir : Option Byte) (addr : Option Int) (s : State) :
    raise k ir addr s = .next (takeFault (faultRecord k ir addr s) s) := rfl

@[simp] theorem setReg_sp (s : State) (v : Byte) : (s.setReg Config.spIndex v).sp = v := setReg_reg_same s _ v

@[simp] theorem raiseSp_sp (s : State) : (raiseSp s).sp = s.sp + 1 := by
  simp only [raiseSp, setReg_sp]
  apply BitVec.eq_of_toNat_eq
  simp [BitVec.toNat_add, BitVec.toNat_ofNat]

/-- A write of SP leaves every other register. -/
theorem setSp_reg_ne (s : State) (v : Byte) {i : Reg} (h : i ≠ 7) : (s.setReg Config.spIndex v).reg i = s.reg i :=
  setReg_reg_ne s _ _ _ h

/-- The lowered SP, as a number. -/
theorem sp_sub_toNat {s : State} (h : s.sp ≠ 0) : (s.sp - 1).toNat = s.sp.toNat - 1 := by
  have h0 : s.sp.toNat ≠ 0 := fun hc => h (BitVec.toNat_inj.mp (by simpa using hc))
  have := s.sp.isLt
  simp only [BitVec.toNat_sub]
  simp
  omega

@[simp] theorem pushAt_pc (d : Byte) (f : State → Byte) (s : State) : (pushAt d f s).pc = s.pc := rfl
@[simp] theorem pushAt_fl (d : Byte) (f : State → Byte) (s : State) : (pushAt d f s).fl = s.fl := rfl
@[simp] theorem pushAt_halted (d : Byte) (f : State → Byte) (s : State) : (pushAt d f s).halted = s.halted := rfl
@[simp] theorem pushAt_fault (d : Byte) (f : State → Byte) (s : State) : (pushAt d f s).fault = s.fault := rfl
@[simp] theorem pushAt_out (d : Byte) (f : State → Byte) (s : State) : (pushAt d f s).out = s.out := rfl
@[simp] theorem pushAt_mem (d : Byte) (f : State → Byte) (s : State) :
    (pushAt d f s).mem = s.mem.write d.toNat (f (s.setReg Config.spIndex d)) := rfl
theorem pushAt_reg (d : Byte) (f : State → Byte) (s : State) (i : Reg) :
    (pushAt d f s).reg i = (s.setReg Config.spIndex d).reg i := rfl
@[simp] theorem pushAt_sp (d : Byte) (f : State → Byte) (s : State) : (pushAt d f s).sp = d := setReg_sp s d

@[simp] theorem raiseSp_pc (s : State) : (raiseSp s).pc = s.pc := rfl
@[simp] theorem raiseSp_fl (s : State) : (raiseSp s).fl = s.fl := rfl
@[simp] theorem raiseSp_halted (s : State) : (raiseSp s).halted = s.halted := rfl
@[simp] theorem raiseSp_fault (s : State) : (raiseSp s).fault = s.fault := rfl
@[simp] theorem raiseSp_out (s : State) : (raiseSp s).out = s.out := rfl
@[simp] theorem raiseSp_mem (s : State) : (raiseSp s).mem = s.mem := rfl
theorem raiseSp_reg_ne (s : State) {i : Reg} (h : i ≠ 7) : (raiseSp s).reg i = s.reg i := setReg_reg_ne s _ _ _ h

/-- What an error of an instruction looks like: the latch holds this step's record and nothing else changed. -/
def Raised (s t : State) : Prop := ∃ k ir addr, t = takeFault (faultRecord k ir addr s) s

/-- Every meaning answers a next state. -/
theorem exec_next (i : Instr) (s : State) : ∃ t, exec i s = .next t := by
  cases i <;>
    simp only [exec, execHlt, execLdi, execPrn, execMul, execAdd, execSub, execDiv, execCmp, execPush, execPop, execCall,
      execRet, execJmp, execJeq, execJne, aluInstr, branchIf, withReg, raiseDecode, raiseBounds, raiseArithmetic, raise,
      writeAluOut]
  case hlt => exact ⟨_, rfl⟩
  all_goals
    repeat' split
    all_goals exact ⟨_, rfl⟩

end Sys2Proof.Laws
end

