-- ==== Sys2Proof/Laws/Exec.lean ====
section
/-! SUPPORT. One equation per instruction on register operands, one for a bad operand, and the inversion that says all an instruction can do. -/

namespace Sys2Proof.Laws

open Sys2Proof.Machine

variable (s : State) (i j : Reg)

theorem exec_hlt : exec .hlt s = .next (s.setHalted.advance .HLT) := rfl

theorem exec_ldi (v : Byte) : exec (.ldi (regByte i) v) s = .next ((s.setReg i v).advance .LDI) := by
  simp [exec, execLdi]

theorem exec_prn : exec (.prn (regByte i)) s = .next ((s.emit (s.reg i)).advance .PRN) := by
  simp [exec, execPrn]

theorem exec_mul : exec (.mul (regByte i) (regByte j)) s =
    .next ((s.setReg i (BitVec.ofNat 8 ((s.reg i).toNat * (s.reg j).toNat))).advance .MUL) := by
  simp [exec, execMul, aluInstr, alu, writeAluOut]

theorem exec_add : exec (.add (regByte i) (regByte j)) s =
    .next ((s.setReg i (BitVec.ofNat 8 ((s.reg i).toNat + (s.reg j).toNat))).advance .ADD) := by
  simp [exec, execAdd, aluInstr, alu, writeAluOut]

theorem exec_sub : exec (.sub (regByte i) (regByte j)) s =
    .next ((s.setReg i (BitVec.ofInt 8 (((s.reg i).toNat : Int) - ((s.reg j).toNat : Int)))).advance .SUB) := by
  simp [exec, execSub, aluInstr, alu, writeAluOut]

theorem exec_div : exec (.div (regByte i) (regByte j)) s =
    if (s.reg j).toNat = 0 then raiseArithmetic .DIV s
    else .next ((s.setReg i (BitVec.ofNat 8 ((s.reg i).toNat / (s.reg j).toNat))).advance .DIV) := by
  simp only [exec, execDiv, aluInstr, alu, withReg_regByte]
  split <;> rfl

theorem exec_cmp : exec (.cmp (regByte i) (regByte j)) s =
    .next ((s.setFlags (compareFlags (s.reg i) (s.reg j))).advance .CMP) := by
  simp [exec, execCmp, aluInstr, alu, writeAluOut]

theorem exec_push : exec (.push (regByte i)) s =
    if s.sp = 0 then raiseBounds .PUSH (-1) s
    else .next ((pushAt (s.sp - 1) (fun s₁ => s₁.reg i) s).advance .PUSH) := by
  simp only [exec, execPush, withReg_regByte, pushAddr_eq]
  split
  · next h => split at h <;> simp_all
  · next h => split at h <;> simp_all

theorem exec_pop : exec (.pop (regByte i)) s =
    if 244 ≤ s.sp.toNat then raiseBounds .POP s.sp.toNat s
    else .next ((raiseSp (s.setReg i (s.load s.sp))).advance .POP) := by
  simp only [exec, execPop, withReg_regByte, popAddr_eq]
  split
  · next h => split at h <;> simp_all
  · next h => split at h <;> simp_all

theorem exec_call : exec (.call (regByte i)) s =
    if s.sp = 0 then raiseBounds .CALL (-1) s
    else if s.next .CALL > 255 then raiseBounds .CALL 256 s
    else
      let s₁ := pushAt (s.sp - 1) (fun _ => BitVec.ofNat 8 (s.next .CALL)) s
      .next (s₁.jumpTo (s₁.reg i)) := by
  simp only [exec, execCall, withReg_regByte, pushAddr_eq]
  split
  · next h => split at h <;> simp_all
  · next h => split at h <;> simp_all

theorem exec_ret : exec .ret s =
    if 244 ≤ s.sp.toNat then raiseBounds .RET s.sp.toNat s else .next (raiseSp (s.jumpTo (s.load s.sp))) := by
  simp only [exec, execRet, popAddr_eq]
  split
  · next h => split at h <;> simp_all
  · next h => split at h <;> simp_all

theorem exec_jmp : exec (.jmp (regByte i)) s = .next (s.jumpTo (s.reg i)) := by
  simp [exec, execJmp, branchIf]

theorem exec_jeq : exec (.jeq (regByte i)) s = .next (if s.fl.E then s.jumpTo (s.reg i) else s.advance .JEQ) := by
  simp [exec, execJeq, branchIf]

theorem exec_jne : exec (.jne (regByte i)) s = .next (if !s.fl.E then s.jumpTo (s.reg i) else s.advance .JNE) := by
  simp [exec, execJne, branchIf]

/-- An instruction with a bad register operand raises DecodeError and does nothing else (R90). -/
theorem exec_bad {k : Instr} (h : k.wellFormed = false) : exec k s = raiseDecode k.mnemonic s := by
  cases k with
  | hlt => cases h
  | ret => cases h
  | ldi a v => simp only [Instr.wellFormed] at h; exact withReg_bad h
  | prn a => simp only [Instr.wellFormed] at h; exact withReg_bad h
  | push a => simp only [Instr.wellFormed] at h; exact withReg_bad h
  | pop a => simp only [Instr.wellFormed] at h; exact withReg_bad h
  | call a => simp only [Instr.wellFormed] at h; exact withReg_bad h
  | jmp a => simp only [Instr.wellFormed] at h; exact withReg_bad h
  | jeq a => simp only [Instr.wellFormed] at h; exact withReg_bad h
  | jne a => simp only [Instr.wellFormed] at h; exact withReg_bad h
  | mul a b | add a b | sub a b | div a b | cmp a b =>
    all_goals
      simp only [Instr.wellFormed] at h
      simp only [exec, execMul, execAdd, execSub, execDiv, execCmp, aluInstr]
      rcases regByte_or_bad a with ⟨i, rfl⟩ | ha
      · simp only [namesRegister_regByte, Bool.true_and] at h
        simp only [withReg_regByte, withReg_bad h]; rfl
      · exact withReg_bad ha

/-- The well-formed instructions, each on the registers it names. -/
inductive OnRegisters : Instr → Prop where
  | hlt : OnRegisters .hlt
  | ldi (i : Reg) (v : Byte) : OnRegisters (.ldi (regByte i) v)
  | prn (i : Reg) : OnRegisters (.prn (regByte i))
  | mul (i j : Reg) : OnRegisters (.mul (regByte i) (regByte j))
  | add (i j : Reg) : OnRegisters (.add (regByte i) (regByte j))
  | sub (i j : Reg) : OnRegisters (.sub (regByte i) (regByte j))
  | div (i j : Reg) : OnRegisters (.div (regByte i) (regByte j))
  | cmp (i j : Reg) : OnRegisters (.cmp (regByte i) (regByte j))
  | push (i : Reg) : OnRegisters (.push (regByte i))
  | pop (i : Reg) : OnRegisters (.pop (regByte i))
  | call (i : Reg) : OnRegisters (.call (regByte i))
  | ret : OnRegisters .ret
  | jmp (i : Reg) : OnRegisters (.jmp (regByte i))
  | jeq (i : Reg) : OnRegisters (.jeq (regByte i))
  | jne (i : Reg) : OnRegisters (.jne (regByte i))

theorem regByte_of_names {r : Byte} (h : namesRegister r = true) : ∃ i, r = regByte i := by
  rcases regByte_or_bad r with h' | h'
  · exact h'
  · rw [h] at h'; cases h'

/-- A well-formed instruction is an instruction on registers. -/
theorem onRegisters_of_wellFormed {k : Instr} (h : k.WellFormed) : OnRegisters k := by
  cases k with
  | hlt => exact .hlt
  | ret => exact .ret
  | ldi a v => obtain ⟨i, rfl⟩ := regByte_of_names h; exact .ldi i v
  | prn a => obtain ⟨i, rfl⟩ := regByte_of_names h; exact .prn i
  | push a => obtain ⟨i, rfl⟩ := regByte_of_names h; exact .push i
  | pop a => obtain ⟨i, rfl⟩ := regByte_of_names h; exact .pop i
  | call a => obtain ⟨i, rfl⟩ := regByte_of_names h; exact .call i
  | jmp a => obtain ⟨i, rfl⟩ := regByte_of_names h; exact .jmp i
  | jeq a => obtain ⟨i, rfl⟩ := regByte_of_names h; exact .jeq i
  | jne a => obtain ⟨i, rfl⟩ := regByte_of_names h; exact .jne i
  | mul a b =>
    obtain ⟨ha, hb⟩ := (Bool.and_eq_true _ _).mp h
    obtain ⟨i, rfl⟩ := regByte_of_names ha; obtain ⟨j, rfl⟩ := regByte_of_names hb; exact .mul i j
  | add a b =>
    obtain ⟨ha, hb⟩ := (Bool.and_eq_true _ _).mp h
    obtain ⟨i, rfl⟩ := regByte_of_names ha; obtain ⟨j, rfl⟩ := regByte_of_names hb; exact .add i j
  | sub a b =>
    obtain ⟨ha, hb⟩ := (Bool.and_eq_true _ _).mp h
    obtain ⟨i, rfl⟩ := regByte_of_names ha; obtain ⟨j, rfl⟩ := regByte_of_names hb; exact .sub i j
  | div a b =>
    obtain ⟨ha, hb⟩ := (Bool.and_eq_true _ _).mp h
    obtain ⟨i, rfl⟩ := regByte_of_names ha; obtain ⟨j, rfl⟩ := regByte_of_names hb; exact .div i j
  | cmp a b =>
    obtain ⟨ha, hb⟩ := (Bool.and_eq_true _ _).mp h
    obtain ⟨i, rfl⟩ := regByte_of_names ha; obtain ⟨j, rfl⟩ := regByte_of_names hb; exact .cmp i j

end Sys2Proof.Laws
end

