-- ==== Sys2Proof/Laws/Step.lean ====
section
/-! SUPPORT. What a fetch and a step can do, said once. -/

namespace Sys2Proof.Laws

open Sys2Proof.Machine

/-- The fetch of one byte: the byte in memory at an address 0 to 255, otherwise a BoundsError with that address. -/
theorem fetchByte_eq (s : State) (ir : Option Byte) (a : Nat) :
    fetchByte s ir a = if a ≤ 255 then .ok (s.mem.read a) else .error (faultRecord .boundsError ir (some (a : Int)) s) := by
  unfold fetchByte
  rw [checkAddr_nat]
  by_cases h : a ≤ 255
  · simp only [if_pos h, State.load, BitVec.toNat_ofNat]
    rw [Nat.mod_eq_of_lt (by omega)]
  · simp only [if_neg h]

/-- The fetch of an instruction, by the opcode's operand count (R111, R112, R88). -/
theorem fetch_eq (s : State) :
    fetch s =
      if s.pc.toNat ≤ 255 then
        let ir := s.mem.read s.pc.toNat
        match countField ir with
        | 0 => .ok [ir]
        | 1 =>
          if s.pc.toNat + 1 ≤ 255 then .ok [ir, s.mem.read (s.pc.toNat + 1)]
          else .error (faultRecord .boundsError (some ir) (some 256) s)
        | 2 =>
          if s.pc.toNat + 2 ≤ 255 then .ok [ir, s.mem.read (s.pc.toNat + 1), s.mem.read (s.pc.toNat + 2)]
          else .error (faultRecord .boundsError (some ir) (some 256) s)
        | _ => .error (faultRecord .decodeError (some ir) none s)
      else .error (faultRecord .boundsError none (some (s.pc.toNat : Int)) s) := by
  unfold fetch
  rw [fetchByte_eq]
  by_cases h : s.pc.toNat ≤ 255
  · simp only [if_pos h]
    rcases hc : countField (s.mem.read s.pc.toNat) with _ | _ | _ | n
    · simp [fetchOperands]
    · simp only [fetchOperands, fetchByte_eq]
      by_cases h1 : s.pc.toNat + 1 ≤ 255
      · have h1' : s.pc.toNat < 255 := by omega
        simp [h1']
      · have : s.pc.toNat = 255 := by omega
        simp [this]
    · simp only [fetchOperands, fetchByte_eq]
      by_cases h1 : s.pc.toNat + 2 ≤ 255
      · have h1' : s.pc.toNat < 255 := by omega
        simp [h1, h1']
      · by_cases h2 : s.pc.toNat + 1 ≤ 255
        · have : s.pc.toNat = 254 := by omega
          simp [this]
        · have : s.pc.toNat = 255 := by omega
          simp [this]
    · have hlt : countField (s.mem.read s.pc.toNat) ≤ 3 := by
        have := (s.mem.read s.pc.toNat).isLt
        unfold countField; omega
      have : n = 0 := by omega
      subst this
      simp
  · simp only [if_neg h]

/-- A step of a running core, by its fetch. -/
theorem step_running {s : State} (h : s.Running) :
    step s = match fetch s with
      | .error r => .next (takeFault r s)
      | .ok bytes => runFetched bytes s := by
  obtain ⟨hh, hf⟩ := h
  rcases hfe : fetch s with r | bytes <;> simp only [step, cycle, hh, hf, hfe]

/-- A step exists only of a running core. -/
theorem running_of_step {s t : State} (h : step s = .next t) : s.Running := by
  unfold step cycle at h
  rcases hh : s.halted with _ | _ <;> rcases hf : s.fault with _ | r <;> rw [hh, hf] at h <;>
    first | exact ⟨hh, hf⟩ | cases h

/-- All a step that answers a next state can be: a fetch error, bytes that do not decode, or an instruction executed. -/
theorem step_cases {s t : State} (h : step s = .next t) :
    s.Running ∧
    ((∃ r, fetch s = .error r ∧ current s = none ∧ t = takeFault r s) ∨
     (∃ bytes e, fetch s = .ok bytes ∧ decode bytes = .error e ∧ current s = none ∧
        t = takeFault (faultRecord .decodeError bytes.head? none s) s) ∨
     (∃ bytes i rest, fetch s = .ok bytes ∧ decode bytes = .ok (i, rest) ∧ current s = some i ∧ i.WellFormed ∧
        exec i s = .next t)) := by
  have hr := running_of_step h
  refine ⟨hr, ?_⟩
  rw [step_running hr] at h
  have hguard : (s.halted || s.fault.isSome) = false := by simp [hr.1, hr.2]
  rcases hf : fetch s with r | bytes
  · rw [hf] at h
    cases h
    exact .inl ⟨r, rfl, by simp [current, hguard, hf], rfl⟩
  · rw [hf] at h
    rcases hd : decode bytes with e | ⟨i, rest⟩
    · simp only [runFetched, hd, raise, Host.Outcome.next.injEq] at h
      exact .inr (.inl ⟨bytes, e, rfl, hd, by simp [current, hguard, hf, hd], h.symm⟩)
    · simp only [runFetched, hd] at h
      exact .inr (.inr ⟨bytes, i, rest, rfl, hd, by simp [current, hguard, hf, hd], decodeWith_wellFormed hd, h⟩)

end Sys2Proof.Laws
end

