-- ==== Sys2Proof/Laws/Events.lean ====
section
/-! SUPPORT. The events of a step, by the reads of its fetch and the access of its instruction. -/

namespace Sys2Proof.Laws

open Sys2Proof.Machine

/-- The operand fetch reads upward from `a`, as many bytes as asked but none past address 255. -/
theorem operandReads_eq (n a : Nat) :
    operandReads n a = (List.range (min n (256 - a))).map fun j => .read (BitVec.ofNat 8 (a + j)) := by
  induction n generalizing a with
  | zero => simp [operandReads]
  | succ n ih =>
    simp only [operandReads, checkAddr_nat]
    by_cases h : a ≤ 255
    · have hmin : min (n + 1) (256 - a) = min n (256 - (a + 1)) + 1 := by omega
      rw [if_pos h, hmin, List.range_succ_eq_map]
      simp [ih, Function.comp_def, Nat.add_assoc, Nat.add_comm 1]
    · have hmin : min (n + 1) (256 - a) = 0 := by omega
      rw [if_neg h, hmin]
      rfl

/-- The fetch reads upward from the pc: nothing when the pc is 256, the opcode alone when its count is 3, else opcode and operands but none past address 255. -/
theorem fetchEvents_eq (s : State) :
    fetchEvents s =
      (List.range
        (if s.pc.toNat > 255 then 0
         else if countField (s.mem.read s.pc.toNat) = 3 then 1
         else min (1 + countField (s.mem.read s.pc.toNat)) (256 - s.pc.toNat))).map
        fun j => .read (BitVec.ofNat 8 (s.pc.toNat + j)) := by
  simp only [fetchEvents, checkAddr_nat]
  by_cases h : s.pc.toNat ≤ 255
  · have hd : (BitVec.ofNat 8 s.pc.toNat).toNat = s.pc.toNat := by rw [BitVec.toNat_ofNat]; omega
    rw [if_pos h, if_neg (by omega)]
    simp only [State.load, hd]
    by_cases h3 : countField (s.mem.read s.pc.toNat) = 3
    · simp [h3]
    · have hmin : min (1 + countField (s.mem.read s.pc.toNat)) (256 - s.pc.toNat) =
          min (countField (s.mem.read s.pc.toNat)) (256 - (s.pc.toNat + 1)) + 1 := by omega
      rw [if_neg h3, if_neg h3, operandReads_eq, hmin, List.range_succ_eq_map]
      simp [Function.comp_def, Nat.add_assoc, Nat.add_comm 1]
  · rw [if_neg h, if_pos (by omega)]
    rfl

/-- A core that is not running records nothing. -/
theorem stepEvents_not_running {s : State} (h : ¬ s.Running) : stepEvents s = [] := by
  have hg : (s.halted || s.fault.isSome) = true := by
    cases hh : s.halted <;> cases hf : s.fault <;> simp_all [State.Running]
  simp [stepEvents, hg]

/-- A running core records the reads of its fetch, then the access of the instruction it executes, if any. -/
theorem stepEvents_running {s : State} (h : s.Running) :
    stepEvents s = fetchEvents s ++ ((current s).map fun i => dataEvents i s).getD [] := by
  have hg : (s.halted || s.fault.isSome) = false := by simp [h.1, h.2]
  cases hc : current s <;> simp [stepEvents, hg, hc]

end Sys2Proof.Laws
end

