-- ==== Sys2Proof/Laws/PerInstr.lean ====
section
/-! SUPPORT. Statements about every instruction as syntax, one lemma per constructor of Instr. -/

namespace Sys2Proof.Laws.EncodingShape

/-- The encoding is one opcode byte whose bits 7:6 are the number of operand bytes that follow it, at most 2 (R80, R81). -/
def Statement (i : Instr) : Prop :=
  ∃ ir ops, encode i = ir :: ops ∧ ops.length = countField ir ∧ countField ir ≤ 2

theorem of_operandBytes (i : Instr) : Statement i := by
  refine ⟨opc i.mnemonic, i.operandBytes, rfl, ?_, ?_⟩ <;> rw [admissible_count opc_admissible]
  · exact operandBytes_length i
  · exact operandCount_le _

theorem hlt : Statement .hlt := of_operandBytes _

theorem ldi (a v : Byte) : Statement (.ldi a v) := of_operandBytes _

theorem prn (a : Byte) : Statement (.prn a) := of_operandBytes _

theorem mul (a b : Byte) : Statement (.mul a b) := of_operandBytes _

theorem add (a b : Byte) : Statement (.add a b) := of_operandBytes _

theorem sub (a b : Byte) : Statement (.sub a b) := of_operandBytes _

theorem div (a b : Byte) : Statement (.div a b) := of_operandBytes _

theorem cmp (a b : Byte) : Statement (.cmp a b) := of_operandBytes _

theorem push (a : Byte) : Statement (.push a) := of_operandBytes _

theorem pop (a : Byte) : Statement (.pop a) := of_operandBytes _

theorem call (a : Byte) : Statement (.call a) := of_operandBytes _

theorem ret : Statement .ret := of_operandBytes _

theorem jmp (a : Byte) : Statement (.jmp a) := of_operandBytes _

theorem jeq (a : Byte) : Statement (.jeq a) := of_operandBytes _

theorem jne (a : Byte) : Statement (.jne a) := of_operandBytes _

end Sys2Proof.Laws.EncodingShape
end

