-- ==== Sys2Proof/Machine/Assembly.lean ====
section
/-! DEFINITION. How the source writes an instruction (R93). The machine does not use it. -/

namespace Sys2Proof

/-- The name in capitals. -/
def Mnemonic.text : Mnemonic → String
  | .HLT => "HLT"
  | .LDI => "LDI"
  | .PRN => "PRN"
  | .MUL => "MUL"
  | .ADD => "ADD"
  | .SUB => "SUB"
  | .DIV => "DIV"
  | .CMP => "CMP"
  | .PUSH => "PUSH"
  | .POP => "POP"
  | .CALL => "CALL"
  | .RET => "RET"
  | .JMP => "JMP"
  | .JEQ => "JEQ"
  | .JNE => "JNE"

/-- A number below 1000 in decimal, without leading zeros. -/
def decimal (n : Nat) : String :=
  let digit (d : Nat) : Char := Char.ofNat (48 + d % 10)
  if n < 10 then String.ofList [digit n]
  else if n < 100 then String.ofList [digit (n / 10), digit n]
  else String.ofList [digit (n / 100), digit (n / 10), digit n]

/-- An instruction as the source writes it: name, space, operands separated by a comma, the first being byte `a`; registers as R and the index, an immediate in decimal (R93). -/
def Instr.text (i : Instr) : String :=
  let r (a : Byte) : String := "R" ++ decimal a.toNat
  match i.mnemonic.format, i.operandBytes with
  | .F1R, [a] => i.mnemonic.text ++ " " ++ r a
  | .F2RR, [a, b] => i.mnemonic.text ++ " " ++ r a ++ "," ++ r b
  | .F2RI, [a, v] => i.mnemonic.text ++ " " ++ r a ++ "," ++ decimal v.toNat
  | _, _ => i.mnemonic.text

end Sys2Proof
end

