-- ==== Sys2Proof/Tests/Slice0.lean ====
section
/-! SUPPORT. Tests with results from outside the model (the tables of spec/95_test_vectors.md, named V1 to V6, and bytes written out from R83 and R84), the smoke test of WellFormed, and for every obligation with hypotheses a witness that meets them. -/

namespace Sys2Proof.Tests

open Sys2Proof.Machine Sys2Proof.Claims

/-- The reset state with these bytes in memory from `pc` upward, and the pc there. -/
def board (pc : Nat) (bytes : List Byte) : State :=
  { State.reset with pc := BitVec.ofNat 9 pc, mem := storeBytes bytes pc [] }


/-- A field of the next state, when the answer is a next state. -/
def after {α : Type} (r : Result) (f : State → α) : Option α :=
  match r with
  | .next t => some (f t)
  | .fault _ => none
  | .refused _ => none

/-! ### WellFormed refuses an ill-formed term for each check -/

theorem test_wellFormed_refuses_first_operand :
    ([.ldi 8 0, .prn 8, .mul 8 0, .add 8 0, .sub 8 0, .div 8 0, .cmp 8 0, .push 8, .pop 8, .call 255, .jmp 8, .jeq 9,
      .jne 8] : List Instr).all (fun i => i.wellFormed = false) = true := by decide

theorem test_wellFormed_refuses_second_operand :
    ([.mul 7 8, .add 7 8, .sub 0 8, .div 0 255, .cmp 0 8] : List Instr).all (fun i => i.wellFormed = false) = true := by
  decide

theorem test_wellFormed_accepts :
    ([.hlt, .ret, .ldi 7 255, .prn 7, .mul 7 0, .add 0 7, .push 7, .jne 7] : List Instr).all Instr.wellFormed = true := by
  decide

/-! ### Decoding, one word of each instruction written out bit by bit (V1, R84) -/

theorem test_decode_hlt : decode [0b00000001] = .ok (.hlt, []) := rfl
theorem test_decode_ret : decode [0b00010001] = .ok (.ret, []) := rfl
theorem test_decode_ldi : decode [0b10000010, 0b00000000, 0b00001000] = .ok (.ldi 0 8, []) := rfl
theorem test_decode_prn : decode [0b01000111, 0b00000011] = .ok (.prn 3, []) := rfl
theorem test_decode_mul : decode [0b10100010, 0b00000000, 0b00000001] = .ok (.mul 0 1, []) := rfl
theorem test_decode_add : decode [0b10100000, 0b00000010, 0b00000010] = .ok (.add 2 2, []) := rfl
theorem test_decode_sub : decode [0b10100001, 0b00000001, 0b00000010] = .ok (.sub 1 2, []) := rfl
theorem test_decode_div : decode [0b10100011, 0b00000000, 0b00000001] = .ok (.div 0 1, []) := rfl
theorem test_decode_cmp : decode [0b10100111, 0b00000110, 0b00000101] = .ok (.cmp 6 5, []) := rfl
theorem test_decode_push : decode [0b01000101, 0b00000000] = .ok (.push 0, []) := rfl
theorem test_decode_pop : decode [0b01000110, 0b00000001] = .ok (.pop 1, []) := rfl
theorem test_decode_call : decode [0b01010000, 0b00000001] = .ok (.call 1, []) := rfl
theorem test_decode_jmp : decode [0b01010100, 0b00000100] = .ok (.jmp 4, []) := rfl
theorem test_decode_jeq : decode [0b01010101, 0b00000010] = .ok (.jeq 2, []) := rfl
theorem test_decode_jne : decode [0b01010110, 0b00000100] = .ok (.jne 4, []) := rfl

/-- V1's refusals, by the reason R87, R88 or R90 gives. -/
theorem test_decode_refuses :
    decode [0x00] = .error .unknownOpcode ∧ decode [0x41, 0x00] = .error .unknownOpcode ∧
    decode [0x02] = .error .unknownOpcode ∧ decode [0xA4, 0x00, 0x01] = .error .unknownOpcode ∧
    decode [0xC0] = .error .operandCountThree ∧ decode [0xFF] = .error .operandCountThree ∧
    decode [0x82, 0x08, 0x01] = .error .badRegister ∧ decode [0xA3, 0x09, 0x01] = .error .badRegister ∧
    decode [0xA0, 0x00, 0x08] = .error .badRegister ∧ decode [0x47, 0xFF] = .error .badRegister := by
  refine ⟨?_, ?_, ?_, ?_, ?_, ?_, ?_, ?_, ?_, ?_⟩ <;> rfl

/-- V1's last row: LDI's immediate is never checked. -/
theorem test_decode_immediate_unchecked : decode [0x82, 0x00, 0xFF] = .ok (.ldi 0 255, []) := rfl

/-- The byte at the lowest address is bits 7:0 of a table word. -/
theorem test_decodeTableWord :
    decodeTableWord 24 0x0201A1 = some (.sub 1 2) ∧ decodeTableWord 8 0x11 = some .ret ∧
    decodeTableWord 16 0x0746 = some (.pop 7) ∧ decodeTableWord 8 0x00 = none := by decide

theorem test_withFetchWord :
    current (State.reset.withFetchWord 24 0x0201A1) = some (.sub 1 2) ∧
    current (State.reset.withFetchWord 8 0x01) = some .hlt := by decide

/-- The source's S2, as it writes it. -/
theorem test_text :
    ([.ldi 0 8, .ldi 1 9, .mul 0 1, .prn 0, .hlt, .ldi 7 255] : List Instr).map Instr.text =
      ["LDI R0,8", "LDI R1,9", "MUL R0,R1", "PRN R0", "HLT", "LDI R7,255"] := by decide

/-! ### One step of each instruction (V2 to V6) -/

theorem test_hlt_at_255 : after (step (board 255 [0x01])) (fun t => (t.halted, t.pc, t.fault)) = some (true, 256, none) := by
  decide

theorem test_ldi_r3 : after (step (board 0 [0x82, 3, 255])) (fun t => (t.reg 3, t.pc)) = some (255, 3) := by decide
theorem test_ldi_sp : after (step (board 0 [0x82, 7, 0x10])) State.sp = some 0x10 := by decide

theorem test_prn_unsigned : after (step ((board 0 [0x47, 2]).setReg 2 200)) State.out = some [200] := by decide
theorem test_prn_sp : after (step (board 0 [0x47, 7])) State.out = some [244] := by decide

/-- The rows of V3: a, b, then the result of ADD, SUB, MUL and DIV, and the flags of CMP. -/
def v3 : List ((Byte × Byte) × (Byte × Byte × Byte × Option Byte) × Flags) :=
  let E : Flags := ⟨true, false, false⟩
  let G : Flags := ⟨false, true, false⟩
  let L : Flags := ⟨false, false, true⟩
  [((8, 9), (17, 255, 72, some 0), L), ((0, 0), (0, 0, 0, none), E), ((1, 255), (0, 2, 255, some 0), L),
   ((255, 1), (0, 254, 255, some 255), G), ((255, 255), (254, 0, 1, some 1), E), ((200, 100), (44, 100, 32, some 2), G),
   ((16, 16), (32, 0, 0, some 1), E), ((128, 128), (0, 0, 0, some 1), E), ((5, 10), (15, 251, 50, some 0), L)] ++
  [((10, 5), (15, 5, 50, some 2), G), ((0, 1), (1, 255, 0, some 0), L), ((100, 7), (107, 93, 188, some 14), G),
   ((7, 2), (9, 5, 14, some 3), G), ((0, 5), (5, 251, 0, some 0), L), ((5, 7), (12, 254, 35, some 0), L),
   ((127, 128), (255, 255, 128, some 0), L), ((128, 127), (255, 1, 128, some 1), G)]

/-- The start of a row of V3. -/
def alu2 (a b : Byte) : State := (State.reset.setReg 0 a).setReg 1 b

theorem test_add : v3.all (fun r => after (exec (.add 0 1) (alu2 r.1.1 r.1.2)) (·.reg 0) = some r.2.1.1) = true := by decide
theorem test_sub : v3.all (fun r => after (exec (.sub 0 1) (alu2 r.1.1 r.1.2)) (·.reg 0) = some r.2.1.2.1) = true := by
  decide
theorem test_mul : v3.all (fun r => after (exec (.mul 0 1) (alu2 r.1.1 r.1.2)) (·.reg 0) = some r.2.1.2.2.1) = true := by
  decide

/-- Where V3 says ArithmeticError, x[0] keeps its value and the latch is full. -/
theorem test_div :
    v3.all (fun r => after (exec (.div 0 1) (alu2 r.1.1 r.1.2)) (fun t => (t.reg 0, t.fault.isSome)) =
      some (r.2.1.2.2.2.getD r.1.1, r.2.1.2.2.2.isNone)) = true := by decide

theorem test_cmp : v3.all (fun r => after (exec (.cmp 0 1) (alu2 r.1.1 r.1.2)) (·.fl) = some r.2.2) = true := by decide

/-- V3's fault: DIV at 6. -/
theorem test_div_fault :
    after (step ((board 6 [0xA3, 0, 1]).setReg 0 7)) (fun t => (t.fault, t.reg 0, t.pc)) =
      some (some ⟨.arithmeticError, 3, 6, some 0xA3, none⟩, 7, 6) := by decide

/-- V3's same-register rows. -/
theorem test_mul_square : after (step ((board 0 [0xA2, 2, 2]).setReg 2 15)) (·.reg 2) = some 225 := by decide

theorem test_push : after (step ((board 0 [0x45, 0]).setReg 0 0x2A)) (fun t => (t.sp, t.load 0xF3)) = some (0xF3, 0x2A) := by
  decide
theorem test_push_sp : after (step (board 0 [0x45, 7])) (fun t => (t.sp, t.load 0xF3)) = some (0xF3, 0xF3) := by decide

theorem test_pop :
    after (step (((board 0 [0x46, 1]).setReg 7 0xF3).store 0xF3 0x2A)) (fun t => (t.reg 1, t.sp, t.load 0xF3)) =
      some (0x2A, 0xF4, 0x2A) := by decide
theorem test_pop_sp : after (step (((board 0 [0x46, 7]).setReg 7 0xF3).store 0xF3 0xFF)) State.sp = some 0 := by decide

theorem test_call :
    after (step ((board 6 [0x50, 1]).setReg 1 0x0B)) (fun t => (t.sp, t.load 0xF3, t.pc)) = some (0xF3, 0x08, 0x0B) := by
  decide
theorem test_call_sp : after (step (board 0 [0x50, 7])) (fun t => (t.load 0xF3, t.pc)) = some (0x02, 0xF3) := by decide

theorem test_ret :
    after (step (((board 0 [0x11]).setReg 7 0xF3).store 0xF3 0x08)) (fun t => (t.pc, t.sp)) = some (8, 0xF4) := by decide

theorem test_jmp : after (step ((board 0x10 [0x54, 4]).setReg 4 0x20)) (·.pc) = some 0x20 := by decide

theorem test_jeq_taken :
    after (step (((board 0x0C [0x55, 2]).setReg 2 0x0F).setFlags ⟨true, false, false⟩)) (·.pc) = some 0x0F := by decide
theorem test_jeq_not_taken :
    after (step (((board 0x0C [0x55, 2]).setReg 2 0x0F).setFlags ⟨false, true, false⟩)) (·.pc) = some 0x0E := by decide

theorem test_jne_taken : after (step ((board 3 [0x56, 0]).setReg 0 6)) (·.pc) = some 6 := by decide
theorem test_jne_not_taken :
    after (step (((board 0x18 [0x56, 4]).setReg 4 0x0F).setFlags ⟨true, false, false⟩)) (·.pc) = some 0x1A := by decide

/-- The BoundsErrors of V4: pop on an empty stack and beyond it, RET, push at SP 0, return address 256, stack check first. -/
theorem test_stack_errors :
    after (step (board 0 [0x46, 0])) (·.fault) = some (some ⟨.boundsError, 2, 0, some 0x46, some 0xF4⟩) ∧
    after (step ((board 0 [0x46, 0]).setReg 7 0xF7)) (·.fault) = some (some ⟨.boundsError, 2, 0, some 0x46, some 0xF7⟩) ∧
    after (step (board 0 [0x11])) (·.fault) = some (some ⟨.boundsError, 2, 0, some 0x11, some 0xF4⟩) ∧
    after (step ((board 0 [0x45, 0]).setReg 7 0)) (fun t => (t.fault, t.sp)) =
      some (some ⟨.boundsError, 2, 0, some 0x45, some (-1)⟩, 0) ∧
    after (step (board 254 [0x50, 0])) (·.fault) = some (some ⟨.boundsError, 2, 254, some 0x50, some 256⟩) ∧
    after (step ((board 254 [0x50, 0]).setReg 7 0)) (·.fault) =
      some (some ⟨.boundsError, 2, 254, some 0x50, some (-1)⟩) := by decide

/-- V6, with the DecodeErrors of S7 and V1 at a step. -/
theorem test_fetch_errors :
    after (step (board 256 [])) (·.fault) = some (some ⟨.boundsError, 2, 256, none, some 256⟩) ∧
    after (step (board 255 [0x47])) (·.fault) = some (some ⟨.boundsError, 2, 255, some 0x47, some 256⟩) ∧
    after (step (board 255 [0x40])) (·.fault) = some (some ⟨.boundsError, 2, 255, some 0x40, some 256⟩) ∧
    after (step (board 255 [0xC0])) (·.fault) = some (some ⟨.decodeError, 1, 255, some 0xC0, none⟩) ∧
    after (step (board 254 [0x82, 0x00])) (·.fault) = some (some ⟨.boundsError, 2, 254, some 0x82, some 256⟩) ∧
    after (step (board 0 [0xA3, 9, 1])) (·.fault) = some (some ⟨.decodeError, 1, 0, some 0xA3, none⟩) ∧
    after (step (board 0 [0x55, 9])) (·.fault) = some (some ⟨.decodeError, 1, 0, some 0x55, none⟩) ∧
    after (step State.reset) (fun t => (t.fault, t.pc, t.halted)) =
      some (some ⟨.decodeError, 1, 0, some 0x00, none⟩, 0, false) := by decide

/-- The spec's whole-step function R118 gives the row of V3 on the DIV fault, and the wrap of V3's row 5, 10. -/
theorem test_reference :
    (reference ((board 6 [0xA3, 0, 1]).setReg 0 7)).map (·.fault) =
      some (some ⟨.arithmeticError, 3, 6, some 0xA3, none⟩) ∧
    (reference ((board 0 [0xA1, 0, 1]).setReg 0 5 |>.setReg 1 10)).map (fun t => (t.reg 0, t.pc)) = some (251, 3) := by decide

/-! ### Witnesses: a state and operands that meet the hypotheses of each obligation, clause by clause -/

/-- Another opcode map that R84 admits: JNE at 0x57. -/
def otherMap : OpcodeMap := fun m => if m = .JNE then 0x57 else opc m

theorem witness_DecodeOfEncodeIsIdentity :
    opc.admissible = true ∧ otherMap.admissible = true ∧ (Instr.ldi 7 255).WellFormed ∧ (Instr.cmp 7 7).WellFormed := by
  decide

theorem witness_EncodeOfDecodeIsIdentity :
    otherMap.admissible = true ∧ decodeWith otherMap [0xA1, 7, 0, 9] = .ok (.sub 7 0, [9]) := ⟨by decide, rfl⟩

/-- LDI in the last three cells. -/
theorem witness_StepRunsDecodedInstruction :
    let s := board 253 [0x82, 1, 0x77]
    s.Running ∧ s.pc.toNat + 3 ≤ 256 ∧
      (∀ (k : Nat) (h : k < 3), s.mem.read (s.pc.toNat + k) = ([0x82, 1, 0x77] : List Byte)[k]'h) ∧
      decode [0x82, 1, 0x77] = .ok (.ldi 1 0x77, []) := by
  refine ⟨by decide, by decide, by decide, rfl⟩

/-- A halted state and a faulted state. -/
theorem witness_StepExistsExactlyWhileRunning :
    State.reset.setHalted.halted = true ∧ State.reset.setHalted.fault = none ∧
    (decodeErrorAt 0 State.reset).halted = false ∧
    (decodeErrorAt 0 State.reset).fault = some ⟨.decodeError, 1, 0, some 0, none⟩ := by decide

theorem witness_StepIsTheWholeStepFunction :
    (board 256 []).pc.toNat ≤ 256 ∧ State.reset.pc.toNat ≤ 256 := by decide

/-- Each clause at the ends of its range: pc 256; n = 3 at 255; n = 1 and n = 2 at 255; n = 2 at 254; unknown bytes whose operands end at 255; a bad second and a bad first operand. -/
theorem witness_FetchAndDispatchErrors :
    ((board 256 []).Running ∧ (board 256 []).pc.toNat = 256) ∧
    ((board 255 [0xC0]).Running ∧ (0xC0 : Byte).toNat / 64 = 3 ∧ (board 255 [0xC0]).mem.read 255 = 0xC0) ∧
    ((0x40 : Byte).toNat / 64 = 1 ∧ (board 255 [0x40]).mem.read 255 = 0x40) ∧
    ((0x82 : Byte).toNat / 64 = 2 ∧ (board 255 [0x82]).mem.read 255 = 0x82) ∧
    ((board 254 [0x82]).pc.toNat = 254 ∧ (board 254 [0x82]).mem.read 254 = 0x82) ∧
    ((board 255 []).mem.read 255 ∉ fifteenOpcodes ∧ (board 254 [0x41]).mem.read 254 ∉ fifteenOpcodes ∧
      (board 253 [0xA4]).mem.read 253 ∉ fifteenOpcodes) ∧
    ((board 253 [0xA3, 0, 8]).mem.read 253 = opc .DIV ∧ ¬ (assemble .DIV 0 8).WellFormed ∧
      ¬ (assemble .JNE 9 0).WellFormed) := by decide

theorem witness_FaultsArePrecise :
    ∃ t, step (board 255 [0x47]) = .next t ∧ t.fault ≠ none := ⟨_, rfl, by decide⟩

/-- A step that raises it and a step that does not. -/
theorem witness_ArithmeticErrorExactlyOnDivByZero :
    (∃ t, step (board 0 [0xA3, 0, 1]) = .next t ∧ current (board 0 [0xA3, 0, 1]) = some (.div (regByte 0) (regByte 1)) ∧
      (board 0 [0xA3, 0, 1]).reg 1 = 0) ∧
    (∃ t, step (board 0 [0xA3, 0, 7]) = .next t ∧ t.fault = none) :=
  ⟨⟨_, rfl, by decide, by decide⟩, ⟨_, rfl, by decide⟩⟩

/-- Each error the list gives, and an instruction without one. -/
theorem witness_InstructionErrorsAreTheListedOnes :
    (erring (.cmp 0 8) State.reset).isSome = true ∧ (erring (.div 7 0) State.reset).isSome = true ∧
    (erring (.push 0) (State.reset.setReg 7 0)).isSome = true ∧ (erring (.pop 0) State.reset).isSome = true ∧
    (erring (.call 0) (board 254 [])).isSome = true ∧ (erring (.call 0) (board 253 [])).isSome = false ∧
    (erring .ret State.reset).isSome = true ∧ erring .ret (State.reset.setReg 7 0xF3) = none ∧
    erring (.div 0 7) State.reset = none := by decide

/-- Images of 257 and of 256 bytes. -/
theorem witness_BootPlacesTheImage :
    256 < (List.replicate 257 (0x01 : Byte)).length ∧ (List.replicate 256 (0x01 : Byte)).length ≤ 256 := by
  rw [List.length_replicate, List.length_replicate]; decide

theorem witness_StepKeepsInvariant :
    (board 253 [0x82, 1, 0x77]).Inv ∧ ∃ t, step (board 253 [0x82, 1, 0x77]) = .next t ∧ t.pc = 256 :=
  ⟨by decide, _, rfl, by decide⟩

/-- For HltHaltsAndAdvances, LdiLoadsTheImmediate, PrnEmitsTheRegister, CmpSetsAllThreeFlags and JumpsTakeTheRegisterOrFallThrough: the last place each instruction can stand (HLT at 255; two bytes at 254; three bytes at 253; CALL at 253). -/
theorem witness_InstructionResults :
    (board 255 []).pc.toNat + 1 ≤ 256 ∧ (board 254 []).pc.toNat + 2 ≤ 256 ∧ (board 253 []).pc.toNat + 3 ≤ 256 ∧
    (board 253 []).pc.toNat + 2 ≤ 255 := by decide

theorem witness_MulAddSubFrame :
    (board 253 []).pc.toNat + 3 ≤ 256 ∧ ((Instr.mul 7 0) = .mul (regByte 7) (regByte 0)) ∧ ((Instr.add 7 7) = .add (regByte 7) (regByte 7)) ∧
    ((Instr.sub 0 7) = .sub (regByte 0) (regByte 7)) := by decide

/-- A divisor other than 0 (R7) and a divisor of 0 (R0). -/
theorem witness_DivDividesOrFaults :
    (board 253 []).pc.toNat + 3 ≤ 256 ∧ (board 253 []).reg 7 ≠ 0 ∧ (board 253 []).reg 0 = 0 := by decide

/-- SP at the ends of its range, 1 and 255; the pushed register may be 7 or another. -/
theorem witness_PushStoresAtTheLoweredSp :
    let s := (board 254 []).setReg 7 1
    let t := (board 254 []).setReg 7 255
    s.mem.wf = true ∧ s.sp ≠ 0 ∧ s.pc.toNat + 2 ≤ 256 ∧ t.sp ≠ 0 := by decide

/-- SP at the ends of its range, 0 and 0xF3; the clauses on register 7 and on another exclude each other. -/
theorem witness_PopLoadsAndRaisesSp :
    let s := (board 254 []).setReg 7 0xF3
    let t := (board 254 []).setReg 7 0
    s.sp.toNat < 0xF4 ∧ s.pc.toNat + 2 ≤ 256 ∧ t.sp.toNat < 0xF4 ∧ (6 : Reg) ≠ 7 := by decide

theorem witness_CallStoresReturnAddressAndJumps :
    let s := (board 253 []).setReg 7 1
    s.mem.wf = true ∧ s.sp ≠ 0 ∧ s.pc.toNat + 2 ≤ 255 := by decide

theorem witness_RetJumpsToThePoppedByte : (State.reset.setReg 7 0xF3).sp.toNat < 0xF4 := by decide

/-- Each clause: a register outside the destination; a stack instruction; a form that stores, with an address and with none; a form that stores nothing. -/
theorem witness_EveryInstructionFrame :
    (∃ t, exec (.push 0) State.reset = .next t) ∧ pushAddr State.reset = .ok 0xF3 ∧
    (∃ t, exec (.push 0) (State.reset.setReg 7 0) = .next t) ∧ pushAddr (State.reset.setReg 7 0) = .error (-1) ∧
    (∃ t, exec (.pop 1) (State.reset.setReg 7 0) = .next t) ∧ regByte 0 ∉ destinationBytes (.pop 1) ∧
    usesStack (.pop 1) = true ∧ storesByte (.pop 1) = false ∧ isCmp (.pop 1) = false :=
  ⟨⟨_, rfl⟩, rfl, ⟨_, rfl⟩, rfl, ⟨_, rfl⟩, by decide, rfl, rfl, rfl⟩

theorem witness_ExactlyOneFlagAfterCmp :
    isCmp (.add 0 1) = false ∧ ∃ t, exec (.add 0 1) State.reset = .next t := ⟨rfl, _, rfl⟩

/-- A CMP that changes the flags; a JEQ, with other flags that agree on Equal alone; an ADD. -/
theorem witness_FlagsWrittenByCmpReadByJeqJne :
    (∃ t, exec (.cmp (regByte 0) (regByte 1)) State.reset = .next t ∧ t.fl ≠ State.reset.fl) ∧
    (∃ t, exec (.jeq 0) State.reset = .next t ∧ (⟨false, true, true⟩ : Flags).E = State.reset.fl.E ∧
      ∀ a b : Reg, Instr.jeq 0 ≠ .cmp (regByte a) (regByte b)) ∧
    (∃ t, exec (.add 0 1) State.reset = .next t) :=
  ⟨⟨_, rfl, by decide⟩, ⟨_, rfl, by decide, by simp⟩, ⟨_, rfl⟩⟩

theorem witness_OnlyHltHalts :
    (∃ t, exec .hlt State.reset = .next t ∧ t.halted = true) ∧ (∃ t, exec (.prn 0) State.reset = .next t ∧ t.halted = false) ∧
    State.reset.setHalted.halted = true := ⟨⟨_, rfl, rfl⟩, ⟨_, rfl, rfl⟩, rfl⟩

theorem witness_OnlyPrnEmits : ∃ t, step (board 0 [0x47, 7]) = .next t ∧ t.out ≠ [] := ⟨_, rfl, by decide⟩

theorem witness_MemoryCellsHoldTheLastByteWritten :
    (board 255 [0x01]).mem.wf = true ∧ (0 : Byte) ≠ 255 := by decide

/-- An error; a step past the last cell; a jump; a call of register 7; a return. -/
theorem witness_PcAfterAStep :
    (∃ t, step (board 0 [0x46, 0]) = .next t ∧ t.fault ≠ none) ∧
    (∃ t, step (board 253 [0x82, 1, 0x77]) = .next t ∧ t.fault = none ∧
      current (board 253 [0x82, 1, 0x77]) = some (.ldi 1 0x77) ∧ transfers (.ldi 1 0x77) (board 253 [0x82, 1, 0x77]) = false) ∧
    (∃ t, step (board 0 [0x56, 3]) = .next t ∧ t.fault = none ∧ current (board 0 [0x56, 3]) = some (.jne (regByte 3)) ∧
      transfers (.jne 3) (board 0 [0x56, 3]) = true) ∧
    (∃ t, step (board 0 [0x50, 7]) = .next t ∧ t.fault = none ∧ current (board 0 [0x50, 7]) = some (.call (regByte 7))) ∧
    (∃ t, step ((board 0 [0x11]).setReg 7 0xF3) = .next t ∧ t.fault = none ∧
      current ((board 0 [0x11]).setReg 7 0xF3) = some .ret) :=
  ⟨⟨_, rfl, by decide⟩, ⟨_, rfl, by decide, by decide, by decide⟩, ⟨_, rfl, by decide, by decide, by decide⟩,
    ⟨_, rfl, by decide, by decide⟩, ⟨_, rfl, by decide, by decide⟩⟩

/-- SP at both ends of the range, 1 and 0xF4. -/
theorem witness_PopAfterPushReturnsTheByte :
    (State.reset.mem.wf = true ∧ State.reset.sp ≠ 0 ∧ State.reset.sp.toNat ≤ 0xF4) ∧
    ((State.reset.setReg 7 1).sp ≠ 0 ∧ (State.reset.setReg 7 1).sp.toNat ≤ 0xF4) ∧ (0 : Reg) ≠ 7 ∧ (6 : Reg) ≠ 7 := by
  decide

/-- The subroutine may have changed a register and the flags. -/
theorem witness_RetAfterCallResumes :
    State.reset.mem.wf = true ∧ State.reset.sp ≠ 0 ∧ State.reset.sp.toNat ≤ 0xF4 ∧ State.reset.pc.toNat + 2 ≤ 255 ∧
    ∃ t, exec (.call (regByte 1)) State.reset = .next t ∧ ((t.setReg 3 9).jumpTo 77).sp = t.sp ∧
      ((t.setReg 3 9).jumpTo 77).mem.read ((t.setReg 3 9).jumpTo 77).sp.toNat = t.mem.read t.sp.toNat := by
  refine ⟨by decide, by decide, by decide, by decide, _, rfl, by decide, by decide⟩

/-- A step that halts, a step that faults, and a state whose run has ended. -/
theorem witness_RunsEndByHltOrError :
    (∃ t, step (board 255 [0x01]) = .next t ∧ ¬ t.Running) ∧ (∃ t, step (board 256 []) = .next t ∧ ¬ t.Running) ∧
    ¬ State.reset.setHalted.Running := ⟨⟨_, rfl, by decide⟩, ⟨_, rfl, by decide⟩, by decide⟩

/-- V5's last row: a JMP to itself, `54 00` at 3 with x[0] = 3. -/
def spin : State := (board 3 [0x54, 0]).setReg 0 3

theorem spin_runFor (k : Nat) : runFor k spin = spin := by
  induction k with
  | zero => rfl
  | succ k ih => exact ih

theorem witness_EndlessRunHasABackwardTransfer : spin.Inv ∧ ∀ k, (runFor k spin).Running :=
  ⟨by decide, fun k => by rw [spin_runFor]; decide⟩

/-- The clauses on a write, a read, an emit and an instruction with none of them, each completing; a step that faults in its fetch, at the ends of the range, and one that faults after it. -/
theorem witness_EventsOfAStepInOrder :
    stepEvents (board 0 [0x45, 7]) = [.read 0, .read 1, .write 0xF3 0xF3] ∧
    stepEvents ((board 0 [0x11]).setReg 7 0xF3) = [.read 0, .read 0xF3] ∧
    stepEvents (board 0 [0x47, 7]) = [.read 0, .read 1, .emit 244] ∧
    stepEvents (board 253 [0xA0, 1, 2]) = [.read 253, .read 254, .read 255] ∧
    after (step (board 0 [0x45, 7])) (·.fault) = some none ∧ current (board 0 [0x45, 7]) = some (.push 7) ∧
    after (step ((board 0 [0x11]).setReg 7 0xF3)) (·.fault) = some none ∧
    after (step (board 0 [0x47, 7])) (·.fault) = some none ∧
    after (step (board 253 [0xA0, 1, 2])) (·.fault) = some none := by decide

/-- R68, R59, R88: what a faulting step records, at pc 255, 254 and 256, for the count 3, and for a CALL at 254. -/
theorem test_events_of_faults :
    stepEvents (board 255 [0x47]) = [.read 255] ∧ stepEvents (board 255 [0x82]) = [.read 255] ∧
    stepEvents (board 254 [0x82, 0]) = [.read 254, .read 255] ∧ stepEvents (board 256 []) = [] ∧
    stepEvents (board 0 [0xC0]) = [.read 0] ∧ stepEvents (board 254 [0x50, 0]) = [.read 254, .read 255] ∧
    stepEvents (board 0 [0x46, 0]) = [.read 0, .read 1] ∧ stepEvents State.reset.setHalted = [] := by decide

theorem witness_EventsTellWritesAndOutput :
    (board 0 [0x45, 7]).mem.wf = true ∧ (∃ t, step (board 0 [0x45, 7]) = .next t) ∧
    Event.write 0xF3 0xF3 ∈ stepEvents (board 0 [0x45, 7]) := ⟨by decide, ⟨_, rfl⟩, by decide⟩

/-- Another memory that agrees on the bytes a PUSH reads, 0 and 1, and differs at 2. -/
theorem witness_StepReadsOnlyWhatItsEventsSay :
    (∃ t, step (board 0 [0x45, 7]) = .next t) ∧
    (∀ a, Event.read a ∈ stepEvents (board 0 [0x45, 7]) →
      (storeBytes [0x45, 7, 0x99] 0 []).read a.toNat = (board 0 [0x45, 7]).mem.read a.toNat) ∧
    storeBytes [0x45, 7, 0x99] 0 [] ≠ (board 0 [0x45, 7]).mem := by
  refine ⟨⟨_, rfl⟩, ?_, by decide⟩
  rw [witness_EventsOfAStepInOrder.1]
  simp only [List.mem_cons, List.not_mem_nil, Event.read.injEq, reduceCtorEq, or_false]
  rintro a (rfl | rfl) <;> decide

/-- PUSH with SP 3 writes the byte after itself: an opcode that is then fetched, or a byte whose fetch is an error. -/
theorem witness_NextFetchSeesTheByteWritten :
    (let s := ((board 0 [0x45, 0]).setReg 7 3).setReg 0 0x01
     s.mem.wf = true ∧ (∃ t, step s = .next t ∧ t.pc.toNat = (2 : Byte).toNat) ∧ Event.write 2 0x01 ∈ stepEvents s) ∧
    (let s := ((board 0 [0x45, 0]).setReg 7 3).setReg 0 0xC0
     s.mem.wf = true ∧ (∃ t, step s = .next t ∧ t.pc.toNat = (2 : Byte).toNat) ∧ Event.write 2 0xC0 ∈ stepEvents s) :=
  ⟨⟨by decide, ⟨_, rfl, by decide⟩, by decide⟩, ⟨by decide, ⟨_, rfl, by decide⟩, by decide⟩⟩

end Sys2Proof.Tests
end

namespace Sys2Proof.Proofs

open Sys2Proof.Machine Sys2Proof.Claims Sys2Proof.Laws

/-! ### The status: flags and halt flag

O30, O31 and O32 say which instructions write the flags (R28, R29) and the halt flag (R31), and which read them. All
three rest on one commutation: running an instruction after replacing both elements is replacing them after running it. -/

/-- The state with other flags and another halt flag. -/
def withStatus (s : State) (f : Flags) (b : Bool) : State := { s with fl := f, halted := b }

section Fields

variable (s : State) (f : Flags) (b : Bool)

@[simp] theorem withStatus_fl : (withStatus s f b).fl = f := rfl
@[simp] theorem withStatus_halted : (withStatus s f b).halted = b := rfl
@[simp] theorem withStatus_reg (i : Reg) : (withStatus s f b).reg i = s.reg i := rfl
@[simp] theorem withStatus_sp : (withStatus s f b).sp = s.sp := rfl
@[simp] theorem withStatus_next (m : Mnemonic) : (withStatus s f b).next m = s.next m := rfl

/-- A state with its own flags and halt flag is itself. -/
@[simp] theorem withStatus_self : withStatus s s.fl s.halted = s := rfl

end Fields

/-- Every instruction but HLT and a CMP of two registers, run with other flags and another halt flag, gives the same
next state with those; a JEQ or JNE where the flags agree on Equal. -/
theorem exec_withStatus_keeps {i : Instr} {s t : State} {f : Flags} {b : Bool} (hhlt : i ≠ .hlt)
    (hcmp : ∀ x y : Reg, i ≠ .cmp (regByte x) (regByte y))
    (hE : (∃ a, i = .jeq a ∨ i = .jne a) → f.E = s.fl.E) (h : exec i s = .next t) :
    exec i (withStatus s f b) = .next (withStatus t f b) := by
  by_cases hw : i.WellFormed
  · cases onRegisters_of_wellFormed hw with
    | hlt => exact absurd rfl hhlt
    | cmp x y => exact absurd rfl (hcmp x y)
    | ldi | prn | mul | add | sub | jmp =>
      all_goals
        simp only [exec_ldi, exec_prn, exec_mul, exec_add, exec_sub, exec_jmp] at h ⊢
        cases h
        rfl
    | jeq | jne =>
      all_goals
        have hEq : f.E = s.fl.E := hE (by simp)
        simp only [exec_jeq, exec_jne, withStatus_fl, hEq] at h ⊢
        cases h
        split <;> rfl
    | div | push | pop | call | ret =>
      all_goals
        simp only [exec_div, exec_push, exec_pop, exec_call, exec_ret, withStatus_reg, withStatus_sp,
          withStatus_next] at h ⊢
        split_ifs at h
        all_goals
          cases h
          simp only [*, if_true, if_false]
          rfl
  · have hbad : i.wellFormed = false := by simpa using hw
    rw [exec_bad _ hbad] at h ⊢
    cases h
    rfl

/-- Every instruction but a CMP of two registers, run with other flags (agreeing on Equal for JEQ and JNE) and another
halt flag, gives the same next state with those flags and that halt flag, set where the instruction is HLT. -/
theorem exec_withStatus {i : Instr} {s t : State} {f : Flags} {b : Bool}
    (hcmp : ∀ x y : Reg, i ≠ .cmp (regByte x) (regByte y))
    (hE : (∃ a, i = .jeq a ∨ i = .jne a) → f.E = s.fl.E) (h : exec i s = .next t) :
    exec i (withStatus s f b) = .next (withStatus t f (b || decide (i = .hlt))) := by
  by_cases hhlt : i = .hlt
  · subst hhlt
    cases h
    simp only [exec_hlt, decide_true, Bool.or_true]
    rfl
  · simpa [hhlt] using exec_withStatus_keeps hhlt hcmp hE h

/-- The next state of a CMP of two registers does not depend on the flags before it, and keeps the halt flag (R29). -/
theorem exec_cmp_withStatus {s t : State} {x y : Reg} (f : Flags) (b : Bool)
    (h : exec (.cmp (regByte x) (regByte y)) s = .next t) :
    exec (.cmp (regByte x) (regByte y)) (withStatus s f b) = .next (withStatus t t.fl b) := by
  rw [exec_cmp] at h ⊢
  cases h
  rfl

/-- Only a CMP of two registers writes the flags (R29). -/
theorem exec_fl {i : Instr} {s t : State} (hcmp : ∀ x y : Reg, i ≠ .cmp (regByte x) (regByte y))
    (h : exec i s = .next t) : t.fl = s.fl := by
  have h' := exec_withStatus (f := s.fl) (b := s.halted) hcmp (fun _ => rfl) h
  rw [withStatus_self, h] at h'
  injection h' with ht
  rw [ht, withStatus_fl]

/-- Every instruction run with another halt flag gives the same next state with that halt flag, set where the
instruction is HLT (R31). -/
theorem exec_withHalted {i : Instr} {s t : State} (b : Bool) (h : exec i s = .next t) :
    exec i (withStatus s s.fl b) = .next (withStatus t t.fl (b || decide (i = .hlt))) := by
  by_cases hcmp : ∃ x y : Reg, i = .cmp (regByte x) (regByte y)
  · obtain ⟨x, y, rfl⟩ := hcmp
    simpa using exec_cmp_withStatus s.fl b h
  · push Not at hcmp
    rw [exec_fl hcmp h]
    exact exec_withStatus hcmp (fun _ => rfl) h

/-- An instruction leaves the halt flag set where it was set or the instruction is HLT (R31). -/
theorem exec_halted {i : Instr} {s t : State} (h : exec i s = .next t) :
    t.halted = (s.halted || decide (i = .hlt)) := by
  have h' := exec_withHalted s.halted h
  rw [withStatus_self, h] at h'
  injection h' with ht
  rw [ht, withStatus_halted]

/-- Every instruction but a CMP of two registers, run with other flags (agreeing on Equal for JEQ and JNE), gives the
same next state with those flags (R29). -/
theorem exec_setFlags {i : Instr} {s t : State} {f : Flags} (hcmp : ∀ x y : Reg, i ≠ .cmp (regByte x) (regByte y))
    (hE : (∃ a, i = .jeq a ∨ i = .jne a) → f.E = s.fl.E) (h : exec i s = .next t) :
    exec i (s.setFlags f) = .next (t.setFlags f) := by
  have h' := exec_withStatus (b := s.halted) hcmp hE h
  rwa [← exec_halted h] at h'

/-- A CMP of two registers gives the same next state whatever the flags before it (R29). -/
theorem exec_cmp_setFlags (x y : Reg) (s : State) (f : Flags) :
    exec (.cmp (regByte x) (regByte y)) (s.setFlags f) = exec (.cmp (regByte x) (regByte y)) s := by
  rw [exec_cmp, exec_cmp]
  rfl

/-- A step sets the halt flag exactly where it executes HLT: an error leaves it clear, and no step exists while it is
set (R31). -/
theorem step_halted_iff {s t : State} (h : step s = .next t) : t.halted = true ↔ current s = some .hlt := by
  obtain ⟨⟨hclear, -⟩, ⟨r, -, hcur, rfl⟩ | ⟨bytes, e, -, -, hcur, rfl⟩ | ⟨bytes, i, rest, -, -, hcur, -, hexec⟩⟩ :=
    step_cases h
  · simp [hcur, hclear]
  · simp [hcur, hclear]
  · simp [hcur, hclear, exec_halted hexec]

/-- With an empty latch the stop status is normal end exactly where the halt flag is set (R211). -/
theorem stopStatus_normalEnd_iff {s : State} (hf : s.fault = none) : s.stopStatus = .normalEnd ↔ s.halted = true := by
  rcases hh : s.halted with _ | _ <;> simp [State.stopStatus, hf, hh]

/-- Exactly one of the three flags of a comparison is set (R28). -/
theorem compareFlags_exactlyOne (p q : Byte) :
    let f := compareFlags p q
    (f.E = true ∧ f.G = false ∧ f.L = false) ∨ (f.E = false ∧ f.G = true ∧ f.L = false) ∨
      (f.E = false ∧ f.G = false ∧ f.L = true) := by
  simp only [compareFlags, beq_iff_eq, beq_eq_false_iff_ne, decide_eq_true_eq, decide_eq_false_iff_not]
  omega

/-- An instruction that is no CMP is none on any two registers. -/
theorem ne_cmp_of_isCmp {i : Instr} (h : isCmp i = false) (x y : Reg) : i ≠ .cmp (regByte x) (regByte y) := by
  rintro rfl
  cases h

/-- Settles O30: a CMP writes the flags of one comparison, and the other instructions keep the flags. -/
theorem exactlyOneFlagAfterCmp : Obligations.ExactlyOneFlagAfterCmp := by
  unfold Obligations.ExactlyOneFlagAfterCmp
  constructor
  · intro a b s
    exact ⟨_, exec_cmp s a b, compareFlags_exactlyOne (s.reg a) (s.reg b)⟩
  · intro i s t hi h
    exact exec_fl (ne_cmp_of_isCmp hi) h

/-- Settles O31, by comparing the runs from two states that differ in the flags. -/
theorem flagsWrittenByCmpReadByJeqJne : Obligations.FlagsWrittenByCmpReadByJeqJne := by
  unfold Obligations.FlagsWrittenByCmpReadByJeqJne
  intro i s t f h
  refine ⟨fun hne => ?_, ?_, fun hcmp hE => exec_setFlags hcmp hE h⟩
  · by_contra hcmp
    push Not at hcmp
    exact hne (exec_fl hcmp h)
  · rintro a b rfl
    rw [exec_cmp_setFlags, h]

/-- Settles O32, by comparing the runs from two states that differ in the halt flag, and by the cases of a step. -/
theorem onlyHltHalts : Obligations.OnlyHltHalts := by
  unfold Obligations.OnlyHltHalts
  refine ⟨fun i s t h => ?_, fun _ _ => step_halted_iff, fun s t hset h => ?_, fun _ => rfl,
    fun _ => stopStatus_normalEnd_iff, fun _ _ _ b h => exec_withHalted b h⟩
  · simp [exec_halted h]
  · obtain ⟨hclear, -⟩ := running_of_step h
    simp [hset] at hclear

/-- Settles O12, register by register. -/
theorem resetRegistersPcAndHalt : Obligations.ResetRegistersPcAndHalt := by
  unfold Obligations.ResetRegistersPcAndHalt
  exact ⟨by decide, rfl, rfl⟩

end Sys2Proof.Proofs

namespace Sys2Proof.Proofs

open Sys2Proof.Machine Sys2Proof.Claims Sys2Proof.Laws

/-! ### Memory cells

O34 says that a cell holds the last byte written to it and that a write changes nothing else (R56). -/

/-- Writing back the byte a cell reads leaves a memory of canonical form as it was. -/
theorem write_read_self {m : Memory} {a : Nat} (hm : m.wf = true) (ha : a < 256) : m.write a (m.read a) = m := by
  refine mem_ext (write_wf _ hm ha) hm fun b => ?_
  rw [read_write hm]
  split
  · next hba => rw [hba]
  · rfl

/-- Writing back the byte a cell reads changes nothing in the state. -/
theorem store_load_self {s : State} (hm : s.mem.wf = true) (a : Byte) : s.store a (s.load a) = s := by
  rw [State.store, State.load, write_read_self hm a.isLt]

/-- Settles O34, from the law of a load after a store, used once for each store. -/
theorem memoryCellsHoldTheLastByteWritten : Obligations.MemoryCellsHoldTheLastByteWritten := by
  unfold Obligations.MemoryCellsHoldTheLastByteWritten
  intro s a b v w hm
  have hm' : (s.store a v).mem.wf = true := store_wf a v hm
  refine ⟨?_, ?_, fun hba => ⟨?_, ?_⟩, store_load_self hm a, rfl⟩
  · rw [store_load hm, if_pos rfl]
  · rw [store_load hm', if_pos rfl]
  · rw [store_load hm, if_neg hba]
  · rw [store_load hm', if_neg hba.symm, store_load hm, if_pos rfl]

end Sys2Proof.Proofs

namespace Sys2Proof.Proofs

open Sys2Proof.Machine Sys2Proof.Claims Sys2Proof.Laws

/-! ### The ALU

O20 says R141. A byte is the residue of its unsigned and of its signed value alike, so sum, difference and product of
either reading reduce modulo 256 to one byte; the quotient and the comparison do not. -/

section Residues

variable (p q : Byte)

/-- The byte of an integer is its residue modulo 256. -/
theorem toNat_ofInt_eight (z : Int) : ((BitVec.ofInt 8 z).toNat : Int) = z % 256 := by
  rw [BitVec.toNat_ofInt]
  omega

/-- A byte is the residue of its unsigned value. -/
theorem ofInt_toNat : BitVec.ofInt 8 (p.toNat : Int) = p := by
  rw [BitVec.ofInt_natCast, BitVec.ofNat_toNat, BitVec.setWidth_eq]

/-- The signed and the unsigned sum have the same residue. -/
theorem ofInt_signed_add : BitVec.ofInt 8 (p.toInt + q.toInt) = BitVec.ofInt 8 ((p.toNat : Int) + q.toNat) := by
  simp only [BitVec.ofInt_add, BitVec.ofInt_toInt, ofInt_toNat]

/-- The signed and the unsigned difference have the same residue. -/
theorem ofInt_signed_sub : BitVec.ofInt 8 (p.toInt - q.toInt) = BitVec.ofInt 8 ((p.toNat : Int) - q.toNat) := by
  simp only [Int.sub_eq_add_neg, BitVec.ofInt_add, BitVec.ofInt_neg, BitVec.ofInt_toInt, ofInt_toNat]

/-- The signed and the unsigned product have the same residue. -/
theorem ofInt_signed_mul : BitVec.ofInt 8 (p.toInt * q.toInt) = BitVec.ofInt 8 ((p.toNat : Int) * q.toNat) := by
  simp only [BitVec.ofInt_mul, BitVec.ofInt_toInt, ofInt_toNat]

end Residues

/-- Writing a register and advancing changes that register and the pc only. -/
theorem setReg_advance_frame (a : Reg) (v : Byte) (m : Mnemonic) (s : State) :
    RegistersKeptBut [a] s ((s.setReg a v).advance m) ∧ MemoryKept s ((s.setReg a v).advance m) ∧
      StatusKept s ((s.setReg a v).advance m) := by
  refine ⟨fun r hr => ?_, fun _ => rfl, rfl, rfl, rfl, rfl⟩
  rw [advance_reg, setReg_reg_ne s a r v (by simpa using hr)]

/-- An instruction that writes the residue of `z`, which is also that of `w`, to a register and advances obeys R141's
laws for the exact result `z` and the signed result `w`. -/
theorem wraps_of_exec {i : Instr} {s : State} {a : Reg} {m : Mnemonic} {z w : Int}
    (h : exec i s = .next ((s.setReg a (BitVec.ofInt 8 z)).advance m)) (hw : BitVec.ofInt 8 w = BitVec.ofInt 8 z) :
    ∃ t, exec i s = .next t ∧ ((t.reg a).toNat : Int) = z % 256 ∧ t.reg a = BitVec.ofInt 8 w ∧
      RegistersKeptBut [a] s t ∧ MemoryKept s t ∧ StatusKept s t := by
  have hreg : ((s.setReg a (BitVec.ofInt 8 z)).advance m).reg a = BitVec.ofInt 8 z := by
    rw [advance_reg, setReg_reg_same]
  exact ⟨_, h, by rw [hreg, toNat_ofInt_eight], by rw [hreg, hw], setReg_advance_frame a _ m s⟩

/-- The flags of a comparison are those of the operands' unsigned values (R146). -/
theorem compareFlags_iff (p q : Byte) :
    ((compareFlags p q).E = true ↔ (p.toNat : Int) = q.toNat) ∧
      ((compareFlags p q).G = true ↔ (p.toNat : Int) > q.toNat) ∧
      ((compareFlags p q).L = true ↔ (p.toNat : Int) < q.toNat) := by
  simp only [compareFlags, beq_iff_eq, decide_eq_true_eq]
  omega

/-- The ALU's one error is division by 0 (R141). -/
theorem alu_divideByZero_iff (op : AluOp) (p q : Byte) : alu op p q = .divideByZero ↔ op = .div ∧ q = 0 := by
  cases op with
  | div =>
    have hq : q.toNat = 0 ↔ q = 0 := BitVec.toNat_inj (y := 0)
    simp [alu, hq]
  | mul | add | sub | cmp => simp [alu]

/-- Division by anything but 0 answers the quotient of the unsigned values, which a byte holds (R141). -/
theorem alu_div {p q : Byte} (hq : q ≠ 0) : ∃ v, alu .div p q = .value v ∧ v.toNat = p.toNat / q.toNat := by
  refine ⟨BitVec.ofNat 8 (p.toNat / q.toNat), if_neg (BitVec.toNat_pos_of_ne_zero hq).ne', ?_⟩
  rw [BitVec.toNat_ofNat, Nat.mod_eq_of_lt ((Nat.div_le_self _ _).trans_lt p.isLt)]

/-- The quotient of the ALU is the floor of the exact one (R141). -/
theorem alu_div_floor {p q : Byte} (hq : q ≠ 0) :
    ∃ v, alu .div p q = .value v ∧ v.toNat * q.toNat ≤ p.toNat ∧ p.toNat < (v.toNat + 1) * q.toNat := by
  obtain ⟨v, hv, hval⟩ := alu_div (p := p) hq
  refine ⟨v, hv, ?_, ?_⟩
  · rw [hval]
    exact Nat.div_mul_le_self _ _
  · rw [hval, ← Nat.div_lt_iff_lt_mul (BitVec.toNat_pos_of_ne_zero hq)]
    exact Nat.lt_succ_self _

/-- Settles O20: sum, difference and product by their residues, division by its floor; 254 / 2 and 255 against 1 tell
the unsigned reading from the signed one. -/
theorem aluArithmeticLaws : Obligations.AluArithmeticLaws := by
  unfold Obligations.AluArithmeticLaws
  refine ⟨fun a b s => ⟨?add, ?sub, ?mul, ?cmp⟩, alu_divideByZero_iff, fun _ _ => alu_div_floor,
    ⟨254, 2, 127, by decide⟩, ⟨255, 1, by decide⟩⟩
  -- `exec_add` and `exec_mul` give the byte of a natural number, by definition that of the same integer.
  case add => exact wraps_of_exec (exec_add s a b) (ofInt_signed_add _ _)
  case sub => exact wraps_of_exec (exec_sub s a b) (ofInt_signed_sub _ _)
  case mul => exact wraps_of_exec (exec_mul s a b) (ofInt_signed_mul _ _)
  case cmp => exact ⟨_, exec_cmp s a b, compareFlags_iff _ _⟩

end Sys2Proof.Proofs

namespace Sys2Proof.Proofs

open Sys2Proof.Machine Sys2Proof.Claims Sys2Proof.Laws

/-! ### The arithmetic error

O10 says that division by 0 alone raises an ArithmeticError (R203): a fetch raises none, and of the instructions only
DIV can. -/

@[simp] theorem faultRecord_kind (k : ErrorKind) (ir : Option Byte) (addr : Option Int) (s : State) :
    (faultRecord k ir addr s).kind = k := rfl

/-- The latch holds an ArithmeticError (R32, R203). -/
def ArithmeticFault (t : State) : Prop := ∃ r, t.fault = some r ∧ r.kind = .arithmeticError

/-- A state with an empty latch holds no ArithmeticError. -/
theorem not_arithmeticFault_of_fault_none {t : State} (h : t.fault = none) : ¬ ArithmeticFault t := by
  simp [ArithmeticFault, h]

/-- Taking an error puts an ArithmeticError in the latch exactly where it is one. -/
theorem arithmeticFault_takeFault {r : FaultRecord} {s : State} :
    ArithmeticFault (takeFault r s) ↔ r.kind = .arithmeticError := by
  simp [ArithmeticFault]

/-- A BoundsError is no ArithmeticError (R202). -/
theorem not_arithmeticFault_of_raiseBounds {m : Mnemonic} {addr : Int} {s t : State}
    (h : raiseBounds m addr s = .next t) : ¬ ArithmeticFault t := by
  cases h
  simp [arithmeticFault_takeFault]

/-- The errors of a fetch are BoundsErrors and DecodeErrors (R111, R112). -/
theorem fetch_error_kind {s : State} {r : FaultRecord} (h : fetch s = .error r) : r.kind ≠ .arithmeticError := by
  rw [fetch_eq] at h
  by_cases hpc : s.pc.toNat ≤ 255
  · rw [if_pos hpc] at h
    dsimp only at h
    split at h
    · cases h
    · split_ifs at h
      cases h
      nofun
    · split_ifs at h
      cases h
      nofun
    · cases h
      nofun
  · rw [if_neg hpc] at h
    cases h
    nofun

/-- A DIV of two registers, run with an empty latch, raises an ArithmeticError exactly where its divisor is 0 (R145). -/
theorem exec_div_arithmeticFault_iff {s t : State} {i j : Reg} (hf : s.fault = none)
    (h : exec (.div (regByte i) (regByte j)) s = .next t) : ArithmeticFault t ↔ s.reg j = 0 := by
  have hzero : (s.reg j).toNat = 0 ↔ s.reg j = 0 := BitVec.toNat_inj (y := 0)
  rw [exec_div] at h
  split_ifs at h with hj
  · cases h
    exact iff_of_true (arithmeticFault_takeFault.mpr rfl) (hzero.mp hj)
  · cases h
    exact iff_of_false (not_arithmeticFault_of_fault_none hf) (mt hzero.mpr hj)

/-- A well-formed instruction other than DIV, run with an empty latch, raises no ArithmeticError (R203). -/
theorem exec_not_arithmeticFault {k : Instr} {s t : State} (hw : k.WellFormed) (hf : s.fault = none)
    (hdiv : ∀ i j : Reg, k ≠ .div (regByte i) (regByte j)) (h : exec k s = .next t) : ¬ ArithmeticFault t := by
  cases onRegisters_of_wellFormed hw with
  | div i j => exact absurd rfl (hdiv i j)
  | hlt | ldi | prn | mul | add | sub | cmp | jmp =>
    all_goals
      simp only [exec_hlt, exec_ldi, exec_prn, exec_mul, exec_add, exec_sub, exec_cmp, exec_jmp] at h
      cases h
      exact not_arithmeticFault_of_fault_none hf
  | jeq | jne =>
    all_goals
      simp only [exec_jeq, exec_jne] at h
      cases h
      split <;> exact not_arithmeticFault_of_fault_none hf
  | push | pop | ret =>
    all_goals
      simp only [exec_push, exec_pop, exec_ret] at h
      split_ifs at h
      · exact not_arithmeticFault_of_raiseBounds h
      · cases h
        exact not_arithmeticFault_of_fault_none hf
  | call i =>
    rw [exec_call] at h
    split_ifs at h
    · exact not_arithmeticFault_of_raiseBounds h
    · exact not_arithmeticFault_of_raiseBounds h
    · cases h
      exact not_arithmeticFault_of_fault_none hf

/-- A well-formed instruction, run with an empty latch, raises an ArithmeticError exactly where it is a DIV whose divisor
register holds 0 (R203). -/
theorem exec_arithmeticFault_iff {k : Instr} {s t : State} (hw : k.WellFormed) (hf : s.fault = none)
    (h : exec k s = .next t) :
    ArithmeticFault t ↔ ∃ a b : Reg, k = .div (regByte a) (regByte b) ∧ s.reg b = 0 := by
  by_cases hdiv : ∃ i j : Reg, k = .div (regByte i) (regByte j)
  · obtain ⟨i, j, rfl⟩ := hdiv
    rw [exec_div_arithmeticFault_iff hf h]
    constructor
    · intro hj
      exact ⟨i, j, rfl, hj⟩
    · rintro ⟨a, b, hk, hb⟩
      injection hk with _ hjb
      rwa [regByte_injective hjb]
  · push Not at hdiv
    refine iff_of_false (exec_not_arithmeticFault hw hf hdiv h) ?_
    rintro ⟨a, b, hk, -⟩
    exact hdiv a b hk

/-- Settles O10, by the cases of a step: an error of fetch or decoding is of another kind and executes nothing. -/
theorem arithmeticErrorExactlyOnDivByZero : Obligations.ArithmeticErrorExactlyOnDivByZero := by
  unfold Obligations.ArithmeticErrorExactlyOnDivByZero
  intro s t h
  change ArithmeticFault t ↔ _
  obtain ⟨⟨-, hf⟩, ⟨r, hfetch, hcur, rfl⟩ | ⟨bytes, e, -, -, hcur, rfl⟩ | ⟨bytes, i, rest, -, -, hcur, hw, hexec⟩⟩ :=
    step_cases h
  · simp [arithmeticFault_takeFault, fetch_error_kind hfetch, hcur]
  · simp [arithmeticFault_takeFault, hcur]
  · simpa [hcur] using exec_arithmeticFault_iff hw hf hexec

end Sys2Proof.Proofs

namespace Sys2Proof.Proofs

open Sys2Proof.Machine Sys2Proof.Claims Sys2Proof.Laws

/-! ### Encoding

O1, O2, O3 and O4 say that the decoder and the encoder are inverse under every admissible opcode map (R92, R95). The
operand bytes of an instruction are the first `n` of the two bytes it is assembled from; everything else follows. -/

/-- The operand bytes of an assembled instruction are the ones its format has (R83). -/
theorem operandBytes_assemble (p : Mnemonic) (a b : Byte) :
    (assemble p a b).operandBytes = [a, b].take p.operandCount := by
  cases p <;> rfl

/-- Every instruction is assembled from two bytes, a byte its format lacks being 0. -/
theorem exists_assemble (i : Instr) :
    ∃ a b : Byte, i = assemble i.mnemonic a b ∧ (i.mnemonic.operandCount < 1 → a = 0) ∧
      (i.mnemonic.operandCount < 2 → b = 0) := by
  cases i with
  | hlt | ret => exact ⟨0, 0, rfl, fun _ => rfl, fun _ => rfl⟩
  | prn a | push a | pop a | call a | jmp a | jeq a | jne a => exact ⟨a, 0, rfl, nofun, fun _ => rfl⟩
  | ldi a b | mul a b | add a b | sub a b | div a b | cmp a b => exact ⟨a, b, rfl, nofun, nofun⟩

/-- The dispatch on an instruction's own opcode accepts its operands where they are well-formed. -/
theorem decodeOperands_opcode {m : OpcodeMap} (hm : m.admissible = true) (p : Mnemonic) (a b : Byte) :
    decodeOperands m (m p) a b =
      if (assemble p a b).wellFormed then .ok (assemble p a b) else .error .badRegister := by
  rw [decodeOperands, mnemonicOf_self hm]

/-- All the decoder accepts: an opcode of count at most 2 and its operand bytes, then the rest (R92). -/
theorem decodeWith_ok {m : OpcodeMap} {bytes rest : List Byte} {i : Instr}
    (h : decodeWith m bytes = .ok (i, rest)) :
    ∃ ir a b, decodeOperands m ir a b = .ok i ∧ countField ir ≤ 2 ∧
      bytes = ir :: ([a, b].take (countField ir) ++ rest) := by
  have key : ∀ {ir a b : Byte} {r : List Byte},
      (decodeOperands m ir a b).map (·, r) = .ok (i, rest) → decodeOperands m ir a b = .ok i ∧ r = rest := by
    intro ir a b r h
    rcases hd : decodeOperands m ir a b with e | j <;> rw [hd] at h <;> cases h
    exact ⟨rfl, rfl⟩
  unfold decodeWith at h
  split at h
  · cases h
  · next ir tail =>
    split at h
    · next hc =>
      obtain ⟨hd, rfl⟩ := key h
      exact ⟨ir, 0, 0, hd, by omega, by simp [hc]⟩
    · next a r hc =>
      obtain ⟨hd, rfl⟩ := key h
      exact ⟨ir, a, 0, hd, by omega, by simp [hc]⟩
    · next a b r hc =>
      obtain ⟨hd, rfl⟩ := key h
      exact ⟨ir, a, b, hd, by omega, by simp [hc]⟩
    all_goals cases h

/-- Decoding an opcode followed by its operand bytes and more is the dispatch on those operands (R92). -/
theorem decodeWith_operands {m : OpcodeMap} {ir a b : Byte} (rest : List Byte) (hc : countField ir ≤ 2)
    (ha : countField ir < 1 → a = 0) (hb : countField ir < 2 → b = 0) :
    decodeWith m (ir :: ([a, b].take (countField ir) ++ rest)) = (decodeOperands m ir a b).map (·, rest) := by
  obtain h | h | h : countField ir = 0 ∨ countField ir = 1 ∨ countField ir = 2 := by omega
  · simp [decodeWith, h, ha, hb]
  · simp [decodeWith, h, hb]
  · simp [decodeWith, h]

/-- Decoding any instruction's encoding, and more: the instruction and what followed where it is well-formed, else the
refusal of a bad register. -/
theorem decodeWith_encodeWith_append {m : OpcodeMap} (hm : m.admissible = true) (i : Instr) (rest : List Byte) :
    decodeWith m (encodeWith m i ++ rest) = if i.wellFormed then .ok (i, rest) else .error .badRegister := by
  obtain ⟨a, b, hi, ha, hb⟩ := exists_assemble i
  have hcount : countField (m i.mnemonic) = i.mnemonic.operandCount := admissible_count hm _
  have hops : i.operandBytes = [a, b].take (countField (m i.mnemonic)) := by
    rw [hcount, ← operandBytes_assemble, ← hi]
  rw [encodeWith, hops, List.cons_append,
    decodeWith_operands rest (hcount ▸ operandCount_le _) (hcount ▸ ha) (hcount ▸ hb), decodeOperands_opcode hm, ← hi]
  split <;> rfl

/-- Decoding a well-formed instruction's encoding, and more, gives the instruction and what followed. -/
theorem decodeWith_encodeWith {m : OpcodeMap} (hm : m.admissible = true) {i : Instr} (hw : i.WellFormed)
    (rest : List Byte) : decodeWith m (encodeWith m i ++ rest) = .ok (i, rest) := by
  rw [decodeWith_encodeWith_append hm, if_pos hw]

/-- Settles O1, by the round trip through the decoder. -/
theorem decodeOfEncodeIsIdentity : Obligations.DecodeOfEncodeIsIdentity := by
  unfold Obligations.DecodeOfEncodeIsIdentity
  exact ⟨opc_admissible, fun _ _ rest hm hw => decodeWith_encodeWith hm hw rest⟩

/-- What decodes is the encoding of the instruction, then the rest. -/
theorem eq_encodeWith_of_decodeWith {m : OpcodeMap} (hm : m.admissible = true) {bytes rest : List Byte} {i : Instr}
    (h : decodeWith m bytes = .ok (i, rest)) : bytes = encodeWith m i ++ rest := by
  obtain ⟨ir, a, b, hd, -, rfl⟩ := decodeWith_ok h
  obtain ⟨hi, rfl, -⟩ := decodeOperands_ok hd
  have hops : i.operandBytes = [a, b].take (countField (m i.mnemonic)) := by
    rw [admissible_count hm, ← operandBytes_assemble, ← hi]
  rw [encodeWith, hops, List.cons_append]

/-- Settles O2, by the inversion of the decoder. -/
theorem encodeOfDecodeIsIdentity : Obligations.EncodeOfDecodeIsIdentity := by
  unfold Obligations.EncodeOfDecodeIsIdentity
  intro m bytes rest i hm h
  exact ⟨decodeWith_wellFormed h, eq_encodeWith_of_decodeWith hm h⟩

/-- Settles O3, word by word. -/
theorem writtenOutWordsDecode : Obligations.WrittenOutWordsDecode := by
  unfold Obligations.WrittenOutWordsDecode
  exact ⟨rfl, rfl, rfl, rfl, rfl, rfl, rfl, rfl, rfl, rfl, rfl, rfl⟩

/-- The fifteen opcode bytes are the values of the opcode map (R84). -/
theorem mem_fifteenOpcodes {ir : Byte} : ir ∈ fifteenOpcodes ↔ ∃ p, opc p = ir := by
  have hmap : fifteenOpcodes = Mnemonic.all.map opc := rfl
  simp [hmap, mem_all]

/-- Settles O4: what decodes has an instruction's opcode, and an opcode decodes with operands 0. -/
theorem onlyTheFifteenBytesAreOpcodes : Obligations.OnlyTheFifteenBytesAreOpcodes := by
  unfold Obligations.OnlyTheFifteenBytesAreOpcodes
  intro ir
  rw [mem_fifteenOpcodes]
  constructor
  · rintro ⟨a, b, i, rest, h⟩
    have henc := eq_encodeWith_of_decodeWith opc_admissible h
    rw [encodeWith, List.cons_append] at henc
    exact ⟨i.mnemonic, (List.cons.inj henc).1.symm⟩
  · rintro ⟨p, rfl⟩
    have hw : (assemble p 0 0).WellFormed := by cases p <;> rfl
    have hbytes : [opc p, 0, 0] = encode (assemble p 0 0) ++ ([0, 0] : List Byte).drop p.operandCount := by
      rw [encode, encodeWith, operandBytes_assemble, assemble_mnemonic, List.cons_append, List.take_append_drop]
    exact ⟨0, 0, assemble p 0 0, _, hbytes ▸ decodeWith_encodeWith opc_admissible hw _⟩

end Sys2Proof.Proofs

namespace Sys2Proof.Proofs

open Sys2Proof.Machine Sys2Proof.Claims Sys2Proof.Laws

/-! ### What an instruction can do

An instruction either raises the error `erring` lists for it, or completes with the effect its rule gives. `Completes`
holds the effects, one constructor per way an instruction can complete; `exec_cases` says there is nothing else. O11 and
the statements about every instruction and every step rest on it. -/

/-- The effect of an instruction that completes in state `s` (R130 to R183, R204). -/
inductive Completes (s : State) : Instr → State → Prop where
  | hlt : Completes s .hlt (s.setHalted.advance .HLT)
  | ldi (i : Reg) (v : Byte) : Completes s (.ldi (regByte i) v) ((s.setReg i v).advance .LDI)
  | prn (i : Reg) : Completes s (.prn (regByte i)) ((s.emit (s.reg i)).advance .PRN)
  | mul (i j : Reg) : Completes s (.mul (regByte i) (regByte j))
      ((s.setReg i (BitVec.ofNat 8 ((s.reg i).toNat * (s.reg j).toNat))).advance .MUL)
  | add (i j : Reg) : Completes s (.add (regByte i) (regByte j))
      ((s.setReg i (BitVec.ofNat 8 ((s.reg i).toNat + (s.reg j).toNat))).advance .ADD)
  | sub (i j : Reg) : Completes s (.sub (regByte i) (regByte j))
      ((s.setReg i (BitVec.ofInt 8 (((s.reg i).toNat : Int) - ((s.reg j).toNat : Int)))).advance .SUB)
  | div (i j : Reg) (hj : s.reg j ≠ 0) : Completes s (.div (regByte i) (regByte j))
      ((s.setReg i (BitVec.ofNat 8 ((s.reg i).toNat / (s.reg j).toNat))).advance .DIV)
  | cmp (i j : Reg) : Completes s (.cmp (regByte i) (regByte j))
      ((s.setFlags (compareFlags (s.reg i) (s.reg j))).advance .CMP)
  | push (i : Reg) (hsp : s.sp ≠ 0) : Completes s (.push (regByte i))
      ((pushAt (s.sp - 1) (fun s₁ => s₁.reg i) s).advance .PUSH)
  | pop (i : Reg) (hsp : s.sp.toNat < 244) : Completes s (.pop (regByte i))
      ((raiseSp (s.setReg i (s.load s.sp))).advance .POP)
  | call (i : Reg) (hsp : s.sp ≠ 0) (hret : s.pc.toNat + 2 ≤ 255) : Completes s (.call (regByte i))
      ((pushAt (s.sp - 1) (fun _ => BitVec.ofNat 8 (s.pc.toNat + 2)) s).jumpTo ((s.setReg 7 (s.sp - 1)).reg i))
  | ret (hsp : s.sp.toNat < 244) : Completes s .ret (raiseSp (s.jumpTo (s.load s.sp)))
  | jmp (i : Reg) : Completes s (.jmp (regByte i)) (s.jumpTo (s.reg i))
  | jeqTaken (i : Reg) (hE : s.fl.E = true) : Completes s (.jeq (regByte i)) (s.jumpTo (s.reg i))
  | jeqFalls (i : Reg) (hE : s.fl.E = false) : Completes s (.jeq (regByte i)) (s.advance .JEQ)
  | jneTaken (i : Reg) (hE : s.fl.E = false) : Completes s (.jne (regByte i)) (s.jumpTo (s.reg i))
  | jneFalls (i : Reg) (hE : s.fl.E = true) : Completes s (.jne (regByte i)) (s.advance .JNE)

/-- A register's operand byte is at most 7 (R82). -/
@[simp] theorem regByte_toNat_not_gt (i : Reg) : ¬ 7 < (regByte i).toNat := by
  revert i
  decide

/-- The check of R90 refuses a byte exactly where it is above 7. -/
theorem namesRegister_eq_false {r : Byte} : namesRegister r = false ↔ 7 < r.toNat := by
  simp only [namesRegister, decide_eq_false_iff_not]
  omega

/-- A byte is 0 exactly where its value is. -/
theorem toNat_eq_zero_iff {v : Byte} : v.toNat = 0 ↔ v = 0 := BitVec.toNat_inj (y := 0)

theorem raiseDecode_eq (m : Mnemonic) (s : State) : raiseDecode m s = .next (decodeErrorAt (opc m) s) := rfl

/-- The error listed for a bad register operand is the DecodeError of R90. -/
theorem erring_bad {i : Instr} {s : State} (h : i.wellFormed = false) :
    erring i s = some (decodeErrorAt (opc i.mnemonic) s) := by
  cases i with
  | hlt | ret => cases h
  | ldi a | prn a | push a | pop a | call a | jmp a | jeq a | jne a =>
    all_goals
      have ha : 7 < a.toNat := namesRegister_eq_false.mp h
      simp [erring, ha, opc, Instr.mnemonic]
  | mul a b | add a b | sub a b | div a b | cmp a b =>
    all_goals
      have hab : 7 < a.toNat ∨ 7 < b.toNat := by
        simpa only [Instr.wellFormed, Bool.and_eq_false_iff, namesRegister_eq_false] using h
      simp [erring, hab, opc, Instr.mnemonic]

/-- The error listed for DIV on registers: a zero divisor (R145). -/
theorem erring_div (i j : Reg) (s : State) :
    erring (.div (regByte i) (regByte j)) s = if s.reg j = 0 then some (arithmeticErrorAt (opc .DIV) s) else none := by
  have hdiv : (∃ r : Reg, regByte j = regByte r ∧ s.reg r = 0) ↔ s.reg j = 0 := by
    constructor
    · rintro ⟨r, hr, h0⟩
      rwa [regByte_injective hr]
    · intro h0
      exact ⟨j, rfl, h0⟩
  simp only [erring, hdiv, List.any_cons, List.any_nil, gt_iff_lt, regByte_toNat_not_gt, decide_false, Bool.or_self,
    Bool.false_eq_true, if_false, opc]

/-- The error listed for PUSH on a register: SP 0 (R161). -/
theorem erring_push (i : Reg) (s : State) :
    erring (.push (regByte i)) s = if s.sp = 0 then some (boundsErrorAt (some (opc .PUSH)) (-1) s) else none := by
  simp [erring, opc]

/-- The error listed for POP on a register: SP at STACK_TOP or above (R162). -/
theorem erring_pop (i : Reg) (s : State) :
    erring (.pop (regByte i)) s =
      if 244 ≤ s.sp.toNat then some (boundsErrorAt (some (opc .POP)) s.sp.toNat s) else none := by
  simp [erring, opc]

/-- The errors listed for CALL on a register: SP 0, then a return address of 256 (R163). -/
theorem erring_call (i : Reg) (s : State) :
    erring (.call (regByte i)) s =
      if s.sp = 0 then some (boundsErrorAt (some (opc .CALL)) (-1) s)
      else if s.pc.toNat + 2 > 255 then some (boundsErrorAt (some (opc .CALL)) 256 s) else none := by
  simp [erring, opc]

/-- The error listed for RET: SP at STACK_TOP or above (R164). -/
theorem erring_ret (s : State) :
    erring .ret s = if 244 ≤ s.sp.toNat then some (boundsErrorAt (some (opc .RET)) s.sp.toNat s) else none := rfl

/-- The return address of a CALL is the address two past it. -/
@[simp] theorem next_call (s : State) : s.next .CALL = s.pc.toNat + 2 := rfl

/-- An instruction's next state is the error listed for it, or its completion where none is listed. -/
theorem exec_cases {i : Instr} {s t : State} (h : exec i s = .next t) :
    erring i s = some t ∨ erring i s = none ∧ Completes s i t := by
  by_cases hw : i.WellFormed
  · cases onRegisters_of_wellFormed hw with
    | hlt | ldi | prn | mul | add | sub | cmp | jmp =>
      all_goals
        simp only [exec_hlt, exec_ldi, exec_prn, exec_mul, exec_add, exec_sub, exec_cmp, exec_jmp] at h
        cases h
        exact .inr ⟨by simp [erring], by constructor⟩
    | jeq a =>
      rw [exec_jeq] at h
      cases h
      refine .inr ⟨by simp [erring], ?_⟩
      split
      · next hE => exact .jeqTaken a hE
      · next hE => exact .jeqFalls a (by simpa using hE)
    | jne a =>
      rw [exec_jne] at h
      cases h
      refine .inr ⟨by simp [erring], ?_⟩
      split
      · next hE => exact .jneTaken a (by simpa using hE)
      · next hE => exact .jneFalls a (by simpa using hE)
    | div a b =>
      simp only [exec_div, toNat_eq_zero_iff] at h
      rw [erring_div]
      split_ifs at h ⊢ with hb
      · cases h; exact .inl rfl
      · cases h; exact .inr ⟨rfl, .div a b hb⟩
    | push a =>
      rw [exec_push] at h
      rw [erring_push]
      split_ifs at h ⊢ with hsp
      · cases h; exact .inl rfl
      · cases h; exact .inr ⟨rfl, .push a hsp⟩
    | pop a =>
      rw [exec_pop] at h
      rw [erring_pop]
      split_ifs at h ⊢ with hsp
      · cases h; exact .inl rfl
      · cases h; exact .inr ⟨rfl, .pop a (by omega)⟩
    | ret =>
      rw [exec_ret] at h
      rw [erring_ret]
      split_ifs at h ⊢ with hsp
      · cases h; exact .inl rfl
      · cases h; exact .inr ⟨rfl, .ret (by omega)⟩
    | call a =>
      rw [exec_call, next_call] at h
      rw [erring_call]
      split_ifs at h ⊢ with hsp hret
      · cases h; exact .inl rfl
      · cases h; exact .inl rfl
      · cases h; exact .inr ⟨rfl, .call a hsp (by omega)⟩
  · have hbad : i.wellFormed = false := by simpa using hw
    rw [exec_bad s hbad] at h
    cases h
    exact .inl (erring_bad hbad)

/-- A completion is the instruction's next state. -/
theorem exec_of_completes {s t : State} {i : Instr} (h : Completes s i t) : exec i s = .next t := by
  cases h with
  | hlt | ldi | prn | mul | add | sub | cmp | jmp =>
    simp only [exec_hlt, exec_ldi, exec_prn, exec_mul, exec_add, exec_sub, exec_cmp, exec_jmp]
  | div i j hj => rw [exec_div, if_neg (mt toNat_eq_zero_iff.mp hj)]
  | push i hsp => rw [exec_push, if_neg hsp]
  | pop i hsp => rw [exec_pop, if_neg (by omega)]
  | call i hsp hret =>
    rw [exec_call, if_neg hsp, next_call, if_neg (by omega)]
    rfl
  | ret hsp => rw [exec_ret, if_neg (by omega)]
  | jeqTaken i hE | jeqFalls i hE => simp [exec_jeq, hE]
  | jneTaken i hE | jneFalls i hE => simp [exec_jne, hE]

/-- A completing instruction leaves the latch as it was (R204). -/
theorem Completes.fault {s t : State} {i : Instr} (h : Completes s i t) : t.fault = s.fault := by
  cases h <;> rfl

/-- The error listed for an instruction is its next state. -/
theorem exec_of_erring {i : Instr} {s t : State} (h : erring i s = some t) : exec i s = .next t := by
  obtain ⟨u, hu⟩ := exec_next i s
  rcases exec_cases hu with herr | ⟨hnone, -⟩
  · rw [hu, Option.some.inj (herr.symm.trans h)]
  · simp [h] at hnone

/-- Settles O11: there is always a next state, and it is the listed error or a completion. -/
theorem instructionErrorsAreTheListedOnes : Obligations.InstructionErrorsAreTheListedOnes := by
  unfold Obligations.InstructionErrorsAreTheListedOnes
  intro i s
  refine ⟨fun t => exec_of_erring, fun hnone => ?_⟩
  obtain ⟨t, ht⟩ := exec_next i s
  rcases exec_cases ht with herr | ⟨-, hdone⟩
  · simp [hnone] at herr
  · exact ⟨t, ht, hdone.fault⟩

end Sys2Proof.Proofs

namespace Sys2Proof.Proofs

open Sys2Proof.Machine Sys2Proof.Claims Sys2Proof.Laws

/-! ### The fetch and the step

A fetch either reads the bytes of the instruction at the pc or fails in one of three ways (R111, R112, R88, R205). A step
of a running core executes the instruction those bytes encode, well-formed or not, or is a DecodeError. -/

/-- The bytes a fetch reads when it succeeds: the opcode and as many operands as it counts (R112). -/
def instrBytes (s : State) : List Byte :=
  s.mem.read s.pc.toNat ::
    [s.mem.read (s.pc.toNat + 1), s.mem.read (s.pc.toNat + 2)].take (countField (s.mem.read s.pc.toNat))

/-- The operand count field has two bits (R81). -/
theorem countField_le (ir : Byte) : countField ir ≤ 3 := by
  have := ir.isLt
  unfold countField
  omega

theorem fetch_fits {s : State} (hn : countField (s.mem.read s.pc.toNat) ≤ 2)
    (hpc : s.pc.toNat + countField (s.mem.read s.pc.toNat) ≤ 255) : fetch s = .ok (instrBytes s) := by
  rw [fetch_eq, if_pos (by omega), instrBytes]
  obtain hc | hc | hc : countField (s.mem.read s.pc.toNat) = 0 ∨ countField (s.mem.read s.pc.toNat) = 1 ∨
      countField (s.mem.read s.pc.toNat) = 2 := by omega
  · simp [hc]
  · simp [hc, show s.pc.toNat < 255 by omega]
  · simp [hc, show s.pc.toNat + 2 ≤ 255 by omega]

theorem fetch_operand_past_end {s : State} (hpc : s.pc.toNat ≤ 255) (hn : countField (s.mem.read s.pc.toNat) ≤ 2)
    (hend : 255 < s.pc.toNat + countField (s.mem.read s.pc.toNat)) :
    fetch s = .error (faultRecord .boundsError (some (s.mem.read s.pc.toNat)) (some 256) s) := by
  rw [fetch_eq, if_pos hpc]
  obtain hc | hc : countField (s.mem.read s.pc.toNat) = 1 ∨ countField (s.mem.read s.pc.toNat) = 2 := by omega
  · simp [hc, show ¬ s.pc.toNat < 255 by omega]
  · simp [hc, show ¬ s.pc.toNat + 2 ≤ 255 by omega]

theorem fetch_count_three {s : State} (hpc : s.pc.toNat ≤ 255) (hn : countField (s.mem.read s.pc.toNat) = 3) :
    fetch s = .error (faultRecord .decodeError (some (s.mem.read s.pc.toNat)) none s) := by
  rw [fetch_eq, if_pos hpc]
  simp [hn]

theorem fetch_opcode_past_end {s : State} (hpc : 255 < s.pc.toNat) :
    fetch s = .error (faultRecord .boundsError none (some (s.pc.toNat : Int)) s) := by
  rw [fetch_eq, if_neg (by omega)]

/-- A fetch that succeeds reads the instruction's bytes, at most three and all within memory. -/
theorem fetch_ok {s : State} {bytes : List Byte} (h : fetch s = .ok bytes) :
    bytes = instrBytes s ∧ countField (s.mem.read s.pc.toNat) ≤ 2 ∧
      s.pc.toNat + countField (s.mem.read s.pc.toNat) ≤ 255 := by
  have hle := countField_le (s.mem.read s.pc.toNat)
  by_cases hpc : 255 < s.pc.toNat
  · rw [fetch_opcode_past_end hpc] at h
    cases h
  by_cases hn : countField (s.mem.read s.pc.toNat) = 3
  · rw [fetch_count_three (by omega) hn] at h
    cases h
  by_cases hend : 255 < s.pc.toNat + countField (s.mem.read s.pc.toNat)
  · rw [fetch_operand_past_end (by omega) (by omega) hend] at h
    cases h
  · rw [fetch_fits (by omega) (by omega)] at h
    cases h
    exact ⟨rfl, by omega, by omega⟩

/-- Where the byte at the pc is an opcode, the bytes of the instruction are an encoding, of operands good or bad. -/
theorem instrBytes_of_opcode {s : State} {p : Mnemonic} (h : s.mem.read s.pc.toNat = opc p) :
    instrBytes s = encode (assemble p (s.mem.read (s.pc.toNat + 1)) (s.mem.read (s.pc.toNat + 2))) := by
  rw [instrBytes, encode, encodeWith, operandBytes_assemble, assemble_mnemonic, h, admissible_count opc_admissible]

/-- Fetched bytes that encode an instruction run it: a bad register operand is the same DecodeError in the decoder and in
the instruction (R90, R113). -/
theorem runFetched_encode (i : Instr) (s : State) : runFetched (encode i) s = exec i s := by
  have hdec : decode (encode i) = if i.wellFormed then .ok (i, []) else .error .badRegister := by
    simpa [decode, encode] using decodeWith_encodeWith_append opc_admissible i []
  rcases hw : i.wellFormed with _ | _
  · rw [exec_bad s hw]
    simp only [runFetched, hdec, hw]
    rfl
  · simp only [runFetched, hdec, hw, if_true]

/-- Bytes whose first is no opcode do not decode, and are a DecodeError (R87). -/
theorem runFetched_unknown {s : State} (h : ∀ p, opc p ≠ s.mem.read s.pc.toNat) :
    runFetched (instrBytes s) s = .next (decodeErrorAt (s.mem.read s.pc.toNat) s) := by
  rcases hd : decode (instrBytes s) with e | ⟨i, rest⟩
  · simp only [runFetched, hd]
    rfl
  · have henc : instrBytes s = encodeWith opc i ++ rest := eq_encodeWith_of_decodeWith opc_admissible hd
    rw [instrBytes, encodeWith, List.cons_append] at henc
    exact absurd (List.cons.inj henc).1.symm (h _)

/-- The instruction a step executes is well-formed, and is the one whose encoding stands at the pc, within memory (R113). -/
theorem current_eq_some {s : State} {i : Instr} (h : current s = some i) :
    s.Running ∧ i.WellFormed ∧ fetch s = .ok (encode i) ∧ s.mem.read s.pc.toNat = opc i.mnemonic ∧
      s.pc.toNat + (encode i).length ≤ 256 := by
  unfold current at h
  split at h
  · cases h
  next hrun =>
  split at h
  · cases h
  next bytes hf =>
  split at h
  · cases h
  next j rest hd =>
  cases h
  obtain ⟨rfl, -, hpc⟩ := fetch_ok hf
  have henc : instrBytes s = encodeWith opc i ++ rest := eq_encodeWith_of_decodeWith opc_admissible hd
  have hop : s.mem.read s.pc.toNat = opc i.mnemonic := by
    rw [instrBytes, encodeWith, List.cons_append] at henc
    exact (List.cons.inj henc).1
  have hlen : (encode i).length = 1 + countField (s.mem.read s.pc.toNat) := by
    rw [hop, admissible_count opc_admissible, encode, encodeWith, List.length_cons, operandBytes_length, Nat.add_comm]
  have hrest : rest = [] := by
    have htotal := congrArg List.length henc
    have hbytes : (instrBytes s).length ≤ 1 + countField (s.mem.read s.pc.toNat) := by
      simp [instrBytes, Nat.add_comm]
    rw [List.length_append, ← encode, hlen] at htotal
    exact List.length_eq_zero_iff.mp (by omega)
  rw [hrest, List.append_nil, ← encode] at henc
  exact ⟨by simpa using hrun, decodeWith_wellFormed hd, by rw [hf, henc], hop, by omega⟩

/-- A step executes its current instruction with nothing added around it (R114). -/
theorem step_of_current {s : State} {i : Instr} (h : current s = some i) : step s = exec i s := by
  obtain ⟨hrun, -, hf, -, -⟩ := current_eq_some h
  rw [step_running hrun, hf]
  exact runFetched_encode i s

/-- A running core's fetch of a well-formed instruction makes it the current one. -/
theorem current_of_fetch {s : State} {i : Instr} (hrun : s.Running) (hw : i.WellFormed) (hf : fetch s = .ok (encode i)) :
    current s = some i := by
  have hdec : decode (encode i) = .ok (i, []) := by
    simpa [decode, encode] using decodeWith_encodeWith opc_admissible hw []
  simp [current, hrun.1, hrun.2, hf, hdec]

/-- The bytes of the instruction, by their addresses (R54). -/
theorem instrBytes_eq_map {s : State} (hn : countField (s.mem.read s.pc.toNat) ≤ 2) :
    instrBytes s =
      (List.range (countField (s.mem.read s.pc.toNat) + 1)).map fun k => s.mem.read (s.pc.toNat + k) := by
  rw [instrBytes, List.range_succ_eq_map]
  obtain hc | hc | hc : countField (s.mem.read s.pc.toNat) = 0 ∨ countField (s.mem.read s.pc.toNat) = 1 ∨
      countField (s.mem.read s.pc.toNat) = 2 := by omega
  all_goals simp [hc, List.range_succ]

/-- An encoding that stands in memory at the pc is what the fetch reads. -/
theorem fetch_of_bytesAt {s : State} {i : Instr} (hpc : s.pc.toNat + (encode i).length ≤ 256)
    (hmem : ∀ (k : Nat) (h : k < (encode i).length), s.mem.read (s.pc.toNat + k) = (encode i)[k]) :
    fetch s = .ok (encode i) := by
  have hlen : (encode i).length = i.mnemonic.operandCount + 1 := by
    rw [encode, encodeWith, List.length_cons, operandBytes_length]
  have hop : s.mem.read s.pc.toNat = opc i.mnemonic := hmem 0 (by omega)
  have hcount : countField (s.mem.read s.pc.toNat) = i.mnemonic.operandCount := by
    rw [hop, admissible_count opc_admissible]
  have hle := operandCount_le i.mnemonic
  rw [fetch_fits (by omega) (by omega), instrBytes_eq_map (by omega), hcount]
  congr 1
  refine List.ext_getElem (by simp [hlen]) fun k _ hk => ?_
  rw [List.getElem_map, List.getElem_range, hmem k hk]

/-- Settles O5: what decodes with nothing left over is an encoding, and the fetch reads it. -/
theorem stepRunsDecodedInstruction : Obligations.StepRunsDecodedInstruction := by
  unfold Obligations.StepRunsDecodedInstruction
  intro s bytes i hrun hpc hmem hdec
  have hw : i.WellFormed := decodeWith_wellFormed hdec
  have henc : bytes = encode i := by
    simpa [encode] using eq_encodeWith_of_decodeWith opc_admissible hdec
  subst henc
  have hcur := current_of_fetch hrun hw (fetch_of_bytesAt hpc hmem)
  exact ⟨hw, hcur, step_of_current hcur⟩

/-- A running core's step has a next state: an error of its fetch, a DecodeError, or its instruction's. -/
theorem exists_step_of_running {s : State} (h : s.Running) : ∃ t, step s = .next t := by
  rw [step_running h]
  rcases fetch s with r | bytes
  · exact ⟨_, rfl⟩
  · dsimp only
    rw [runFetched]
    split
    · exact ⟨_, rfl⟩
    · exact exec_next _ _

/-- The stop status is running exactly while `halted` is 0 and the latch empty (R211, R110). -/
theorem stopStatus_running_iff {s : State} : s.stopStatus = .running ↔ s.Running := by
  rcases hh : s.halted <;> rcases hf : s.fault <;> simp [State.stopStatus, State.Running, hh, hf]

/-- The stop status is a fatal end exactly with the record in the latch (R211). -/
theorem stopStatus_fatalEnd_iff {s : State} {r : FaultRecord} : s.stopStatus = .fatalEnd r ↔ s.fault = some r := by
  rcases hh : s.halted <;> rcases hf : s.fault <;> simp [State.stopStatus, hh, hf]

/-- Settles O6, by the cases of the halt flag and the latch. -/
theorem stepExistsExactlyWhileRunning : Obligations.StepExistsExactlyWhileRunning := by
  unfold Obligations.StepExistsExactlyWhileRunning
  intro s
  refine ⟨?_, stopStatus_running_iff, ?_, fun _ => stopStatus_fatalEnd_iff, fun hh => ?_, fun r hh hf => ?_⟩
  · rw [stopStatus_running_iff]
    exact ⟨fun ⟨_, ht⟩ => running_of_step ht, exists_step_of_running⟩
  · rcases hh : s.halted <;> rcases hf : s.fault <;> simp [State.stopStatus, hh, hf]
  · simp only [step, cycle, hh]
  · simp only [step, cycle, hh, hf]

/-- A fetch error is the step's (R111, R112). -/
theorem step_of_fetch_error {s : State} {r : FaultRecord} (hrun : s.Running) (hf : fetch s = .error r) :
    step s = .next (takeFault r s) := by
  rw [step_running hrun, hf]

/-- A running core whose fetch succeeds runs the instruction's bytes. -/
theorem step_of_fits {s : State} (hrun : s.Running) (hn : countField (s.mem.read s.pc.toNat) ≤ 2)
    (hpc : s.pc.toNat + countField (s.mem.read s.pc.toNat) ≤ 255) : step s = runFetched (instrBytes s) s := by
  rw [step_running hrun, fetch_fits hn hpc]

/-- Settles O8: the four outcomes of the fetch, then an unknown opcode and a bad register. -/
theorem fetchAndDispatchErrors : Obligations.FetchAndDispatchErrors := by
  unfold Obligations.FetchAndDispatchErrors
  intro s hrun pc ir n
  have hle : n ≤ 3 := countField_le ir
  refine ⟨fun hpc => ?_, fun hpc hn => ?_, fun hpc hn => ?_, fun hpc hn => ?_, fun hpc hn hop => ?_,
    fun p hpc hop hbad => ?_⟩
  · rw [step_of_fetch_error hrun (fetch_opcode_past_end (show 255 < s.pc.toNat by omega)), show s.pc.toNat = 256 from hpc]
    rfl
  · exact step_of_fetch_error hrun (fetch_count_three hpc hn)
  · exact step_of_fetch_error hrun
      (fetch_operand_past_end (show pc ≤ 255 by omega) (show n ≤ 2 by omega) (show 255 < pc + n by omega))
  · exact step_of_fetch_error hrun
      (fetch_operand_past_end (show pc ≤ 255 by omega) (show n ≤ 2 by omega) (show 255 < pc + n by omega))
  · rw [step_of_fits hrun (show n ≤ 2 by omega) hpc]
    exact runFetched_unknown fun p hp => hop (mem_fifteenOpcodes.mpr ⟨p, hp⟩)
  · have hn : n = p.operandCount := (congrArg countField hop).trans (admissible_count opc_admissible p)
    have hbad' := Bool.not_eq_true _ ▸ hbad
    have := operandCount_le p
    rw [step_of_fits hrun (show n ≤ 2 by omega) hpc, instrBytes_of_opcode hop, runFetched_encode, exec_bad s hbad',
      assemble_mnemonic, raiseDecode_eq, ← hop]

end Sys2Proof.Proofs

namespace Sys2Proof.Proofs

open Sys2Proof.Machine Sys2Proof.Claims Sys2Proof.Laws

/-! ### What a step can do

A step raises one error with a record R200 to R203 allow, or completes its instruction. O9, O16, O35, O38 and O39 follow
from the two cases. -/

/-- The state after `s` raised an error: only the latch changed, and from a pc of at most `top` its record is legal. -/
def Faults (top : Nat) (s t : State) : Prop :=
  ∃ k ir addr, t = takeFault (faultRecord k ir addr s) s ∧
    (s.pc.toNat ≤ top → (faultRecord k ir addr s).legal = true)

@[simp] theorem faultRecord_atPc (k : ErrorKind) (ir : Option Byte) (addr : Option Int) (s : State) :
    (faultRecord k ir addr s).atPc = s.pc := rfl

theorem faults_decodeErrorAt (s : State) (ir : Byte) : Faults 255 s (decodeErrorAt ir s) :=
  ⟨.decodeError, some ir, none, rfl, fun hpc => by simp [FaultRecord.legal, faultRecord, hpc]⟩

theorem faults_arithmeticErrorAt (s : State) : Faults 255 s (arithmeticErrorAt (opc .DIV) s) :=
  ⟨.arithmeticError, some (opc .DIV), none, rfl, fun hpc => by simp [FaultRecord.legal, faultRecord, hpc]⟩

/-- A BoundsError with one of R202's causes. -/
theorem faults_boundsErrorAt {top : Nat} {s : State} {ir : Option Byte} {addr : Int}
    (h : s.pc.toNat ≤ top → boundsCause s.pc ir addr = true) : Faults top s (boundsErrorAt ir addr s) :=
  ⟨.boundsError, ir, some addr, rfl, fun hpc => by simp [FaultRecord.legal, faultRecord, h hpc]⟩

/-- An error raised within memory has a legal record. -/
theorem Faults.of_le {top top' : Nat} {s t : State} (h : Faults top s t) (hpc : s.pc.toNat ≤ top) : Faults top' s t := by
  obtain ⟨k, ir, addr, ht, hlegal⟩ := h
  exact ⟨k, ir, addr, ht, fun _ => hlegal hpc⟩

/-- Above 253 an address of memory is 254 or 255. -/
theorem pc_eq_254_or_255 {pc : Pc} (hlow : 253 < pc.toNat) (hhigh : pc.toNat ≤ 255) : pc = 254 ∨ pc = 255 := by
  obtain h | h : pc.toNat = 254 ∨ pc.toNat = 255 := by omega
  · exact .inl (BitVec.eq_of_toNat_eq h)
  · exact .inr (BitVec.eq_of_toNat_eq h)

/-- The causes of the BoundsError on the address 256: an operand fetch, or a return address (R202). -/
theorem boundsCause_256 {pc : Pc} (ir : Byte) (hlow : 253 < pc.toNat) (hhigh : pc.toNat ≤ 255) :
    boundsCause pc (some ir) 256 = true := by
  rcases pc_eq_254_or_255 hlow hhigh with rfl | rfl <;> simp [boundsCause]

/-- The cause of a pop's BoundsError (R202). -/
theorem boundsCause_pop {pc : Pc} {ir sp : Byte} (hsp : 244 ≤ sp.toNat) (hir : ir = opc .POP ∨ ir = opc .RET) :
    boundsCause pc (some ir) sp.toNat = true := by
  have hlt := sp.isLt
  have h1 : (244 : Int) ≤ sp.toNat := by omega
  have h2 : (sp.toNat : Int) ≤ 255 := by omega
  simp [boundsCause, h1, h2, hir]

/-- The cause of a push's BoundsError (R202). -/
theorem boundsCause_push {pc : Pc} {ir : Byte} (hir : ir = opc .PUSH ∨ ir = opc .CALL) :
    boundsCause pc (some ir) (-1) = true := by
  simp [boundsCause, hir]

/-- An error of the fetch has a legal record. -/
theorem faults_of_fetch_error {s : State} {r : FaultRecord} (h : fetch s = .error r) : Faults 256 s (takeFault r s) := by
  have hle := countField_le (s.mem.read s.pc.toNat)
  by_cases hpc : 255 < s.pc.toNat
  · rw [fetch_opcode_past_end hpc] at h
    cases h
    refine faults_boundsErrorAt fun hmax => ?_
    have h256 : s.pc.toNat = 256 := by omega
    have hpc' : s.pc = 256 := BitVec.eq_of_toNat_eq h256
    simp [boundsCause, hpc']
  by_cases hn : countField (s.mem.read s.pc.toNat) = 3
  · rw [fetch_count_three (by omega) hn] at h
    cases h
    exact (faults_decodeErrorAt s _).of_le (by omega)
  by_cases hend : 255 < s.pc.toNat + countField (s.mem.read s.pc.toNat)
  · rw [fetch_operand_past_end (by omega) (by omega) hend] at h
    cases h
    exact faults_boundsErrorAt fun _ => boundsCause_256 _ (by omega) (by omega)
  · rw [fetch_fits (by omega) (by omega)] at h
    cases h

/-- An error listed for an instruction within memory has a legal record. -/
theorem faults_of_erring {s t : State} {i : Instr} (h : erring i s = some t) : Faults 255 s t := by
  by_cases hw : i.WellFormed
  · cases onRegisters_of_wellFormed hw with
    | hlt | ldi | prn | mul | add | sub | cmp | jmp | jeq | jne => simp [erring] at h
    | div a b =>
      rw [erring_div] at h
      split_ifs at h
      cases h
      exact faults_arithmeticErrorAt s
    | push a =>
      rw [erring_push] at h
      split_ifs at h
      cases h
      exact faults_boundsErrorAt fun _ => boundsCause_push (.inl rfl)
    | pop a =>
      rw [erring_pop] at h
      split_ifs at h with hsp
      cases h
      exact faults_boundsErrorAt fun _ => boundsCause_pop hsp (.inl rfl)
    | ret =>
      rw [erring_ret] at h
      split_ifs at h with hsp
      cases h
      exact faults_boundsErrorAt fun _ => boundsCause_pop hsp (.inr rfl)
    | call a =>
      rw [erring_call] at h
      split_ifs at h
      · cases h
        exact faults_boundsErrorAt fun _ => boundsCause_push (.inr rfl)
      · cases h
        exact faults_boundsErrorAt fun hpc => boundsCause_256 _ (by omega) hpc
  · rw [erring_bad (by simpa using hw)] at h
    cases h
    exact faults_decodeErrorAt s _

/-- All a step can do: raise an error, the one listed for its instruction if it executes one, or complete its
instruction. -/
theorem step_outcome {s t : State} (h : step s = .next t) :
    (Faults 256 s t ∧ ∀ i, current s = some i → erring i s = some t) ∨ ∃ i, current s = some i ∧ Completes s i t := by
  obtain ⟨-, ⟨r, hf, hcur, rfl⟩ | ⟨bytes, e, hf, -, hcur, rfl⟩ | ⟨-, i, -, -, -, hcur, -, hexec⟩⟩ := step_cases h
  · exact .inl ⟨faults_of_fetch_error hf, by simp [hcur]⟩
  · obtain ⟨rfl, -, hpc⟩ := fetch_ok hf
    exact .inl ⟨(faults_decodeErrorAt s _).of_le (by omega), by simp [hcur]⟩
  · rcases exec_cases hexec with herr | ⟨-, hdone⟩
    · obtain ⟨-, -, -, -, hfits⟩ := current_eq_some hcur
      have hlen : 0 < (encode i).length := Nat.succ_pos _
      refine .inl ⟨(faults_of_erring herr).of_le (by omega), fun j hj => ?_⟩
      rwa [← Option.some.inj (hcur.symm.trans hj)]
    · exact .inr ⟨i, hcur, hdone⟩

/-- A step that completes its instruction leaves the latch empty. -/
theorem fault_none_of_completes {s t : State} {i : Instr} (hcur : current s = some i) (h : Completes s i t) :
    t.fault = none := by
  obtain ⟨⟨-, hf⟩, -⟩ := current_eq_some hcur
  rw [h.fault, hf]

/-- A step that raises an error leaves the latch full. -/
theorem Faults.fault_ne_none {top : Nat} {s t : State} (h : Faults top s t) : t.fault ≠ none := by
  obtain ⟨k, ir, addr, rfl, -⟩ := h
  simp

/-- A step leaves the latch full only by raising an error. -/
theorem faults_of_fault {s t : State} (h : step s = .next t) (hf : t.fault ≠ none) :
    Faults 256 s t ∧ ∀ i, current s = some i → erring i s = some t := by
  rcases step_outcome h with herr | ⟨i, hcur, hdone⟩
  · exact herr
  · exact absurd (fault_none_of_completes hcur hdone) hf

/-- A step that executes an instruction and leaves the latch empty completes it. -/
theorem completes_of_step {s t : State} {i : Instr} (h : step s = .next t) (hf : t.fault = none)
    (hcur : current s = some i) : Completes s i t := by
  rcases step_outcome h with ⟨hfault, -⟩ | ⟨j, hcur', hdone⟩
  · exact absurd hf hfault.fault_ne_none
  · rwa [Option.some.inj (hcur.symm.trans hcur')]

/-- Settles O9: the record is the one the faulting state makes. -/
theorem faultsArePrecise : Obligations.FaultsArePrecise := by
  unfold Obligations.FaultsArePrecise
  intro s t h hf
  obtain ⟨hclear, -⟩ := running_of_step h
  obtain ⟨⟨k, ir, addr, rfl, -⟩, -⟩ := faults_of_fault h hf
  exact ⟨hclear, _, rfl, rfl, rfl⟩

/-! ### The pc -/

/-- The pc past an instruction that fits in memory is the integer past its bytes (R114, R27). -/
theorem advance_pc_of_fits {s s' : State} {i : Instr} (hs : s'.pc = s.pc) (h : s.pc.toNat + (encode i).length ≤ 256) :
    (s'.advance i.mnemonic).pc.toNat = s.pc.toNat + (encode i).length := by
  have hnext : s'.next i.mnemonic = s.pc.toNat + (encode i).length := by
    rw [State.next, hs, encode, encodeWith, List.length_cons, operandBytes_length]
    omega
  rw [advance_pc_toNat (hnext ▸ h), hnext]

/-- A control transfer puts the pc at the address in a byte (R180). -/
theorem Completes.pc_of_transfers {s t : State} {i : Instr} (h : Completes s i t) (ht : transfers i s = true) :
    ∃ v : Byte, t.pc.toNat = v.toNat := by
  cases h with
  | ret => exact ⟨_, jumpTo_pc_toNat s _⟩
  | call | jmp | jeqTaken | jneTaken => exact ⟨_, jumpTo_pc_toNat _ _⟩
  | hlt | ldi | prn | mul | add | sub | div | cmp | push | pop => cases ht
  | jeqFalls i hE | jneFalls i hE => simp [transfers, hE] at ht

/-- A control transfer to a register puts the pc at the address it holds afterwards (R181 to R183, R163). -/
theorem Completes.pc_eq_reg {s t : State} {i : Instr} {a : Reg} (h : Completes s i t) (ht : transfers i s = true)
    (ha : i.operandBytes = [regByte a]) : t.pc.toNat = (t.reg a).toNat := by
  cases h with
  | call | jmp | jeqTaken | jneTaken =>
    obtain rfl := regByte_injective (List.cons.inj ha).1
    exact jumpTo_pc_toNat _ _
  | ret => cases ha
  | hlt | ldi | prn | mul | add | sub | div | cmp | push | pop => cases ht
  | jeqFalls i hE | jneFalls i hE => simp [transfers, hE] at ht

/-- An instruction that does not transfer control moves the pc past itself (R115). -/
theorem Completes.pc_of_not_transfers {s t : State} {i : Instr} (h : Completes s i t) (ht : transfers i s = false)
    (hfits : s.pc.toNat + (encode i).length ≤ 256) : t.pc.toNat = s.pc.toNat + (encode i).length := by
  cases h with
  | call | ret | jmp => cases ht
  | jeqTaken i hE | jneTaken i hE => simp [transfers, hE] at ht
  | hlt | ldi | prn | mul | add | sub | div | cmp | push | pop | jeqFalls | jneFalls =>
    exact advance_pc_of_fits rfl hfits

/-- An instruction that completes within memory leaves the pc within 0 to 256 (R27). -/
theorem Completes.pc_le {s t : State} {i : Instr} (h : Completes s i t)
    (hfits : s.pc.toNat + (encode i).length ≤ 256) : t.pc.toNat ≤ 256 := by
  rcases htr : transfers i s with _ | _
  · rw [h.pc_of_not_transfers htr hfits]
    exact hfits
  · obtain ⟨v, hv⟩ := h.pc_of_transfers htr
    have := v.isLt
    omega

/-- A completing RET puts the pc at the byte at SP (R164). -/
theorem Completes.pc_of_ret {s t : State} (h : Completes s .ret t) :
    t.pc.toNat = (s.mem.read s.sp.toNat).toNat := by
  cases h
  exact jumpTo_pc_toNat s _

/-- Settles O35: an error keeps the pc, a completion leaves it by the lemmas above. -/
theorem pcAfterAStep : Obligations.PcAfterAStep := by
  unfold Obligations.PcAfterAStep
  intro s t _ h
  refine ⟨fun hf => ?_, fun i hf hcur => ?_⟩
  · obtain ⟨⟨k, ir, addr, rfl, -⟩, -⟩ := faults_of_fault h hf
    rfl
  · have hdone := completes_of_step h hf hcur
    obtain ⟨-, -, -, -, hfits⟩ := current_eq_some hcur
    refine ⟨fun htr => ⟨hdone.pc_of_not_transfers htr hfits, hdone.pc_le hfits⟩, ?_, ?_⟩
    · rintro a htr (rfl | rfl | rfl | rfl) <;> exact hdone.pc_eq_reg htr rfl
    · rintro rfl
      exact hdone.pc_of_ret

/-! ### The invariant -/

/-- A comparison gives one of the legal values of the flags (R30). -/
theorem compareFlags_legal (p q : Byte) : (compareFlags p q).legal = true := by
  have hone := compareFlags_exactlyOne p q
  rcases hf : compareFlags p q with ⟨E, G, L⟩
  rw [hf] at hone
  rcases hone with ⟨rfl, rfl, rfl⟩ | ⟨rfl, rfl, rfl⟩ | ⟨rfl, rfl, rfl⟩ <;> rfl

/-- A completing instruction keeps the flags legal (R30). -/
theorem Completes.fl_legal {s t : State} {i : Instr} (h : Completes s i t) (hfl : s.fl.legal = true) :
    t.fl.legal = true := by
  cases h with
  | cmp i j => exact compareFlags_legal _ _
  | _ => exact hfl

/-- A completing instruction keeps memory canonical. -/
theorem Completes.mem_wf {s t : State} {i : Instr} (h : Completes s i t) (hm : s.mem.wf = true) : t.mem.wf = true := by
  cases h with
  | push | call => exact write_wf _ hm (BitVec.isLt _)
  | _ => exact hm

/-- The invariant, part by part. -/
theorem inv_iff {s : State} :
    s.Inv ↔ s.pc.toNat ≤ 256 ∧ s.fl.legal = true ∧ s.mem.wf = true ∧ s.latchLegal = true := by
  simp [State.Inv, State.inv, and_assoc]

/-- An empty latch agrees with every state. -/
theorem latchLegal_of_fault_none {s : State} (h : s.fault = none) : s.latchLegal = true := by
  simp [State.latchLegal, h]

/-- Every step keeps the invariant. -/
theorem step_inv {s t : State} (hinv : s.Inv) (h : step s = .next t) : t.Inv := by
  obtain ⟨hpc, hfl, hm, -⟩ := inv_iff.mp hinv
  obtain ⟨hclear, -⟩ := running_of_step h
  rcases step_outcome h with ⟨⟨k, ir, addr, rfl, hlegal⟩, -⟩ | ⟨i, hcur, hdone⟩
  · refine inv_iff.mpr ⟨hpc, hfl, hm, ?_⟩
    simp [State.latchLegal, hlegal hpc, hclear]
  · obtain ⟨-, -, -, -, hfits⟩ := current_eq_some hcur
    exact inv_iff.mpr ⟨hdone.pc_le hfits, hdone.fl_legal hfl, hdone.mem_wf hm,
      latchLegal_of_fault_none (fault_none_of_completes hcur hdone)⟩

/-- Settles O16: an error changes the latch alone, a completion keeps each part of the invariant. -/
theorem stepKeepsInvariant : Obligations.StepKeepsInvariant := by
  unfold Obligations.StepKeepsInvariant
  exact fun _ _ => step_inv

/-- Settles O15, part by part. -/
theorem resetMeetsInvariant : Obligations.ResetMeetsInvariant := by
  unfold Obligations.ResetMeetsInvariant
  exact inv_iff.mpr ⟨by decide, rfl, reset_mem_wf, rfl⟩

/-! ### Runs -/

/-- Running a core whose run has ended holds its state (R239). -/
theorem runFor_of_not_running {s : State} (h : ¬ s.Running) (k : Nat) : runFor k s = s := by
  cases k with
  | zero => rfl
  | succ k =>
    rw [runFor]
    split
    · next t ht => exact absurd (running_of_step ht) h
    · rfl
    · rfl

/-- Running on after a step is running from its next state. -/
theorem runFor_succ_of_step {s t : State} (h : step s = .next t) (k : Nat) : runFor (k + 1) s = runFor k t := by
  rw [runFor, h]

/-- Running `j + k` steps is running `j`, then `k`. -/
theorem runFor_add (j k : Nat) (s : State) : runFor (j + k) s = runFor k (runFor j s) := by
  induction j generalizing s with
  | zero => rw [Nat.zero_add, runFor]
  | succ j ih =>
    by_cases hrun : s.Running
    · obtain ⟨t, ht⟩ := exists_step_of_running hrun
      rw [Nat.add_right_comm, runFor_succ_of_step ht, runFor_succ_of_step ht, ih]
    · simp only [runFor_of_not_running hrun]

/-- Running one step more is stepping the state reached, where that has a step. -/
theorem runFor_succ {s t : State} {k : Nat} (h : step (runFor k s) = .next t) : runFor (k + 1) s = t := by
  rw [runFor_add, runFor_succ_of_step h, runFor]

/-- Only HLT sets the halt flag of a completing instruction. -/
theorem Completes.eq_hlt_of_halted {s t : State} {i : Instr} (h : Completes s i t) (hs : s.halted = false)
    (ht : t.halted = true) : i = .hlt := by
  cases h with
  | hlt => rfl
  | _ => exact absurd (hs.symm.trans ht) Bool.false_ne_true

/-- Settles O38: the step that ends a run raised an error, or completed the HLT that set the halt flag. -/
theorem runsEndByHltOrError : Obligations.RunsEndByHltOrError := by
  unfold Obligations.RunsEndByHltOrError
  refine ⟨fun s t _ h hend => ?_, fun s k hend => runFor_of_not_running hend k, fun s j k => runFor_add j k s⟩
  obtain ⟨hclear, -⟩ := running_of_step h
  rcases step_outcome h with ⟨⟨k, ir, addr, rfl, -⟩, -⟩ | ⟨i, hcur, hdone⟩
  · exact .inr ⟨_, stopStatus_fatalEnd_iff.mpr rfl, hclear, rfl⟩
  · have hf := fault_none_of_completes hcur hdone
    have hhalt : t.halted = true := by simpa [State.Running, hf] using hend
    obtain rfl := hdone.eq_hlt_of_halted hclear hhalt
    obtain ⟨-, -, -, -, hfits⟩ := current_eq_some hcur
    exact .inl ⟨(stopStatus_normalEnd_iff hf).mpr hhalt, hcur, hdone.pc_of_not_transfers rfl hfits⟩

/-- Every state of a run meets the invariant its first state meets. -/
theorem runFor_inv {s : State} (h : s.Inv) (k : Nat) : (runFor k s).Inv := by
  induction k with
  | zero => exact h
  | succ k ih =>
    by_cases hrun : (runFor k s).Running
    · obtain ⟨t, ht⟩ := exists_step_of_running hrun
      rw [runFor_succ ht]
      exact step_inv ih ht
    · rwa [runFor_add, runFor_of_not_running hrun]

/-- The step taken in this state executes a control transfer to an address at or below its own (R117). -/
def BackwardTransfer (s : State) : Prop :=
  ∃ i, current s = some i ∧ transfers i s = true ∧ (runFor 1 s).pc.toNat ≤ s.pc.toNat

/-- A step that leaves the core running and is no backward transfer raises the pc. -/
theorem pc_lt_of_not_backward {s : State} (hrun : s.Running) (hnext : (runFor 1 s).Running)
    (hback : ¬ BackwardTransfer s) : s.pc.toNat < (runFor 1 s).pc.toNat := by
  obtain ⟨t, ht⟩ := exists_step_of_running hrun
  have hrunFor : runFor 1 s = t := runFor_succ_of_step ht 0
  rw [hrunFor] at hnext ⊢
  rcases step_outcome ht with ⟨hfault, -⟩ | ⟨i, hcur, hdone⟩
  · exact absurd hnext.2 hfault.fault_ne_none
  rcases htr : transfers i s with _ | _
  · obtain ⟨-, -, -, -, hfits⟩ := current_eq_some hcur
    have hlen : 0 < (encode i).length := Nat.succ_pos _
    rw [hdone.pc_of_not_transfers htr hfits]
    omega
  · by_contra hle
    exact hback ⟨i, hcur, htr, by rw [hrunFor]; omega⟩

/-- Settles O39: without a backward transfer the pc would rise at each of 257 steps, past 256. -/
theorem endlessRunHasABackwardTransfer : Obligations.EndlessRunHasABackwardTransfer := by
  unfold Obligations.EndlessRunHasABackwardTransfer
  intro s hinv hrun
  have hex : ∃ k, k ≤ 256 ∧ BackwardTransfer (runFor k s) := by
    by_contra hnone
    push Not at hnone
    have hrise : ∀ k, k ≤ 257 → k ≤ (runFor k s).pc.toNat := by
      intro k
      induction k with
      | zero => exact fun _ => Nat.zero_le _
      | succ k ih =>
        intro hk
        have hlt := pc_lt_of_not_backward (hrun k) (by rw [← runFor_add]; exact hrun _) (hnone k (by omega))
        rw [runFor_add]
        have := ih (by omega)
        omega
    obtain ⟨hpc, -⟩ := inv_iff.mp (runFor_inv hinv 257)
    have := hrise 257 le_rfl
    omega
  obtain ⟨k, hk, i, hcur, htr, hle⟩ := hex
  exact ⟨k, i, hk, hcur, htr, by rwa [runFor_add]⟩

end Sys2Proof.Proofs

namespace Sys2Proof.Proofs

open Sys2Proof.Machine Sys2Proof.Claims Sys2Proof.Laws

/-! ### Reset and boot -/

/-- Settles O13, element by element. -/
theorem resetFromAnyState : Obligations.ResetFromAnyState := by
  unfold Obligations.ResetFromAnyState
  intro s
  exact ⟨resetRegistersPcAndHalt.1, rfl, rfl, rfl, rfl, rfl, rfl, rfl, rfl⟩

/-- An image stored from address 0 into the empty memory: its bytes, then MEM_FILL (R39). -/
theorem read_image (bytes : List Byte) {a : Nat} (ha : a < 256) :
    (storeBytes bytes 0 []).read a = (bytes[a]?).getD 0 := by
  rw [read_storeBytes bytes 0 a rfl ha]
  by_cases h : a < bytes.length
  · simp [h]
  · simp [h, Memory.read, Config.memFill]

/-- The reset state with any canonical memory meets the invariant. -/
theorem reset_withMem_inv {m : Memory} (hm : m.wf = true) : ({ State.reset with mem := m } : State).Inv :=
  inv_iff.mpr ⟨Nat.zero_le _, rfl, hm, rfl⟩

/-- Settles O14: the loader's cases; the empty image's first byte is no opcode. -/
theorem bootPlacesTheImage : Obligations.BootPlacesTheImage := by
  unfold Obligations.BootPlacesTheImage
  intro s
  refine ⟨boot_unreadable s, fun bytes hlong => ?_, fun bytes hfits => ?_, rfl, ?_⟩
  · rw [boot_image, if_neg (by omega)]
  · rw [boot_image, if_pos hfits]
    exact ⟨_, rfl, fun _ ha => read_image bytes ha, rfl, reset_withMem_inv (storeBytes_wf bytes 0 rfl), rfl, rfl⟩
  · rw [step_of_fits ⟨rfl, rfl⟩ (by decide) (by decide)]
    exact runFetched_unknown fun p => by cases p <;> decide

/-! ### What each instruction does and leaves alone

Each statement is the instruction's completion, read field by field. The frames that several instructions share come
first. -/

/-- Moving the pc alone keeps everything else. -/
theorem advance_frame (m : Mnemonic) (s : State) :
    RegistersKeptBut [] s (s.advance m) ∧ MemoryKept s (s.advance m) ∧ StatusKept s (s.advance m) :=
  ⟨fun _ _ => rfl, fun _ => rfl, rfl, rfl, rfl, rfl⟩

/-- A jump keeps everything but the pc. -/
theorem jumpTo_frame (v : Byte) (s : State) :
    RegistersKeptBut [] s (s.jumpTo v) ∧ MemoryKept s (s.jumpTo v) ∧ StatusKept s (s.jumpTo v) :=
  ⟨fun _ _ => rfl, fun _ => rfl, rfl, rfl, rfl, rfl⟩

/-- A push puts SP at its address, and changes nothing else but the byte there. -/
theorem pushAt_frame (d : Byte) (f : State → Byte) (s : State) :
    (pushAt d f s).sp = d ∧ MemoryKeptBut d.toNat s (pushAt d f s) ∧ RegistersKeptBut [7] s (pushAt d f s) ∧
      StatusKept s (pushAt d f s) := by
  refine ⟨pushAt_sp d f s, fun a ha => ?_, fun r hr => ?_, rfl, rfl, rfl, rfl⟩
  · rw [pushAt_mem, read_write_ne _ _ _ _ ha]
  · rw [pushAt_reg, setSp_reg_ne s d (by simpa using hr)]

/-- A push leaves at its address the byte read after SP was lowered. -/
theorem pushAt_read {s : State} (hm : s.mem.wf = true) (d : Byte) (f : State → Byte) :
    (pushAt d f s).mem.read d.toNat = f (s.setReg Config.spIndex d) := by
  rw [pushAt_mem, read_write_same hm]

/-- A register read after SP was lowered. -/
theorem lowered_reg (s : State) (a : Reg) : (s.setReg Config.spIndex (s.sp - 1)).reg a = if a = 7 then s.sp - 1 else s.reg a :=
  setReg_reg s _ a _

/-- A pop changes no register but its own and SP. -/
theorem raiseSp_setReg_registersKept (a : Reg) (v : Byte) (s : State) :
    RegistersKeptBut [a, 7] s (raiseSp (s.setReg a v)) := by
  intro r hr
  obtain ⟨ha, h7⟩ : r ≠ a ∧ r ≠ 7 := by simpa using hr
  rw [raiseSp_reg_ne _ h7, setReg_reg_ne _ _ _ _ ha]

/-- A pop into a register other than SP leaves its byte there and raises the SP it found. -/
theorem raiseSp_setReg_of_ne {a : Reg} (ha : a ≠ 7) (v : Byte) (s : State) :
    (raiseSp (s.setReg a v)).reg a = v ∧ (raiseSp (s.setReg a v)).sp = s.sp + 1 := by
  constructor
  · rw [raiseSp_reg_ne _ ha, setReg_reg_same]
  · rw [raiseSp_sp]
    exact congrArg (· + 1) (setReg_reg_ne s a 7 v ha.symm)

/-- A byte below STACK_TOP is raised by one without wrapping. -/
theorem toNat_add_one {v : Byte} (h : v.toNat < 244) : (v + 1).toNat = v.toNat + 1 := by
  rw [BitVec.toNat_add]
  simp
  omega

/-- Settles O17, field by field. -/
theorem hltHaltsAndAdvances : Obligations.HltHaltsAndAdvances := by
  unfold Obligations.HltHaltsAndAdvances
  intro s hpc
  refine ⟨_, exec_hlt s, rfl, advance_pc_toNat (s := s.setHalted) (m := .HLT) hpc, fun _ _ => rfl, fun _ => rfl, rfl, rfl,
    rfl, fun u hu => ?_⟩
  obtain ⟨hclear, -⟩ := running_of_step hu
  cases hclear

/-- Settles O18, field by field. -/
theorem ldiLoadsTheImmediate : Obligations.LdiLoadsTheImmediate := by
  unfold Obligations.LdiLoadsTheImmediate
  intro a v s hpc
  exact ⟨_, exec_ldi s a v, setReg_reg_same s a v, advance_pc_toNat (s := s.setReg a v) (m := .LDI) hpc,
    setReg_advance_frame a v .LDI s⟩

/-- Settles O19, field by field. -/
theorem prnEmitsTheRegister : Obligations.PrnEmitsTheRegister := by
  unfold Obligations.PrnEmitsTheRegister
  intro a s hpc
  exact ⟨_, exec_prn s a, rfl, advance_pc_toNat (s := s.emit _) (m := .PRN) hpc, fun _ _ => rfl, fun _ => rfl, rfl, rfl,
    rfl⟩

/-- Settles O21, by the frame of a register write. -/
theorem mulAddSubFrame : Obligations.MulAddSubFrame := by
  unfold Obligations.MulAddSubFrame
  rintro a b s i (rfl | rfl | rfl) hpc
  · exact ⟨_, exec_mul s a b, advance_pc_toNat (s := s.setReg a _) (m := .MUL) hpc, setReg_advance_frame a _ .MUL s⟩
  · exact ⟨_, exec_add s a b, advance_pc_toNat (s := s.setReg a _) (m := .ADD) hpc, setReg_advance_frame a _ .ADD s⟩
  · exact ⟨_, exec_sub s a b, advance_pc_toNat (s := s.setReg a _) (m := .SUB) hpc, setReg_advance_frame a _ .SUB s⟩

/-- A byte holds the quotient of two bytes. -/
theorem toNat_ofNat_div (p q : Byte) : (BitVec.ofNat 8 (p.toNat / q.toNat)).toNat = p.toNat / q.toNat := by
  rw [BitVec.toNat_ofNat, Nat.mod_eq_of_lt ((Nat.div_le_self _ _).trans_lt p.isLt)]

/-- Settles O22, by the divisor. -/
theorem divDividesOrFaults : Obligations.DivDividesOrFaults := by
  unfold Obligations.DivDividesOrFaults
  intro a b s hpc
  constructor
  · intro hb
    refine ⟨_, exec_of_completes (.div a b hb), ?_, advance_pc_toNat (s := s.setReg a _) (m := .DIV) hpc,
      setReg_advance_frame a _ .DIV s⟩
    rw [advance_reg, setReg_reg_same, toNat_ofNat_div]
  · intro hb
    rw [exec_div, if_pos (toNat_eq_zero_iff.mpr hb)]
    rfl

/-- Settles O23, field by field. -/
theorem cmpSetsAllThreeFlags : Obligations.CmpSetsAllThreeFlags := by
  unfold Obligations.CmpSetsAllThreeFlags
  intro a b s hpc
  obtain ⟨hE, hG, hL⟩ := compareFlags_iff (s.reg a) (s.reg b)
  exact ⟨_, exec_cmp s a b, hE.trans Int.ofNat_inj, hG.trans Int.ofNat_lt, hL.trans Int.ofNat_lt,
    advance_pc_toNat (s := s.setFlags _) (m := .CMP) hpc, fun _ _ => rfl, fun _ => rfl, rfl, rfl, rfl⟩

/-- Settles O24, from the laws of a push. -/
theorem pushStoresAtTheLoweredSp : Obligations.PushStoresAtTheLoweredSp := by
  unfold Obligations.PushStoresAtTheLoweredSp
  intro a s hm hsp hpc
  obtain ⟨hlow, hmem, hregs, hstatus⟩ := pushAt_frame (s.sp - 1) (fun s₁ => s₁.reg a) s
  rw [← sp_sub_toNat hsp]
  refine ⟨_, exec_of_completes (.push a hsp), congrArg BitVec.toNat hlow, ?_, hmem, hregs,
    advance_pc_toNat (s := pushAt _ _ s) (m := .PUSH) hpc, hstatus⟩
  rw [advance_mem, pushAt_read hm, lowered_reg]

/-- Settles O25, from the laws of a pop. -/
theorem popLoadsAndRaisesSp : Obligations.PopLoadsAndRaisesSp := by
  unfold Obligations.PopLoadsAndRaisesSp
  intro a s hsp hpc
  refine ⟨_, exec_of_completes (.pop a hsp), fun ha => ?_, ?_, raiseSp_setReg_registersKept a _ s, fun _ => rfl,
    advance_pc_toNat (s := raiseSp _) (m := .POP) hpc, rfl, rfl, rfl, rfl⟩
  · obtain ⟨hreg, hraised⟩ := raiseSp_setReg_of_ne ha (s.load s.sp) s
    exact ⟨hreg, (congrArg BitVec.toNat hraised).trans (toNat_add_one hsp)⟩
  · rintro rfl
    have hloaded : (s.setReg 7 (s.load s.sp)).sp = s.load s.sp := setReg_sp s _
    rw [advance_sp, raiseSp_sp, hloaded, BitVec.toNat_add]
    rfl

/-- A byte holds an address of memory. -/
theorem toNat_ofNat_of_le {n : Nat} (h : n ≤ 255) : (BitVec.ofNat 8 n).toNat = n := by
  rw [BitVec.toNat_ofNat]
  omega

/-- Settles O26, from the laws of a push. -/
theorem callStoresReturnAddressAndJumps : Obligations.CallStoresReturnAddressAndJumps := by
  unfold Obligations.CallStoresReturnAddressAndJumps
  intro a s hm hsp hret
  obtain ⟨hlow, hmem, hregs, hstatus⟩ := pushAt_frame (s.sp - 1) (fun _ => BitVec.ofNat 8 (s.pc.toNat + 2)) s
  rw [← sp_sub_toNat hsp]
  refine ⟨_, exec_of_completes (.call a hsp hret), congrArg BitVec.toNat hlow, ?_, ?_, hmem, hregs, hstatus⟩
  · rw [jumpTo_mem, pushAt_read hm, toNat_ofNat_of_le hret]
  · rw [jumpTo_pc_toNat, ← apply_ite BitVec.toNat]
    exact congrArg BitVec.toNat (lowered_reg s a)

/-- Settles O27, by the laws of a raised SP. -/
theorem retJumpsToThePoppedByte : Obligations.RetJumpsToThePoppedByte := by
  unfold Obligations.RetJumpsToThePoppedByte
  intro s hsp
  refine ⟨_, exec_of_completes (.ret hsp), jumpTo_pc_toNat s _, ?_, fun r hr => ?_, fun _ => rfl, rfl, rfl, rfl, rfl⟩
  · rw [raiseSp_sp, jumpTo_sp, toNat_add_one hsp]
  · rw [raiseSp_reg_ne _ (by simpa using hr), jumpTo_reg]

/-- A jump that is taken or falls through (R180). -/
theorem branch_frame (taken : Bool) (m : Mnemonic) (v : Byte) {s : State} (hnext : s.next m ≤ 256) :
    let t := if taken then s.jumpTo v else s.advance m
    t.pc.toNat = (if taken then v.toNat else s.next m) ∧ RegistersKeptBut [] s t ∧ MemoryKept s t ∧ StatusKept s t := by
  cases taken with
  | true => exact ⟨jumpTo_pc_toNat s v, jumpTo_frame v s⟩
  | false => exact ⟨advance_pc_toNat hnext, advance_frame m s⟩

/-- Settles O28: JEQ is taken with Equal, JNE without. -/
theorem jumpsTakeTheRegisterOrFallThrough : Obligations.JumpsTakeTheRegisterOrFallThrough := by
  unfold Obligations.JumpsTakeTheRegisterOrFallThrough
  intro a s hpc
  refine ⟨⟨_, exec_jmp s a, jumpTo_pc_toNat s _, jumpTo_frame _ s⟩,
    ⟨_, exec_jeq s a, branch_frame s.fl.E .JEQ (s.reg a) hpc⟩, ⟨_, exec_jne s a, ?_⟩⟩
  obtain ⟨htarget, hframe⟩ := branch_frame (!s.fl.E) .JNE (s.reg a) hpc
  refine ⟨htarget.trans ?_, hframe⟩
  cases s.fl.E <;> rfl

/-! ### Stack round trips -/

/-- Settles O36: the pop finds the pushed byte at the lowered SP. -/
theorem popAfterPushReturnsTheByte : Obligations.PopAfterPushReturnsTheByte := by
  unfold Obligations.PopAfterPushReturnsTheByte
  intro a b s hm ha hb hsp htop
  obtain ⟨htsp, -, htregs, -⟩ := pushAt_frame (s.sp - 1) (fun s₁ => s₁.reg a) s
  set t := (pushAt (s.sp - 1) (fun s₁ => s₁.reg a) s).advance .PUSH with ht
  replace htsp : t.sp = s.sp - 1 := htsp
  have htread : t.load t.sp = s.reg a := by
    rw [State.load, htsp, ht, advance_mem, pushAt_read hm, lowered_reg, if_neg ha]
  have hlow : t.sp.toNat < 244 := by
    rw [htsp, sp_sub_toNat hsp]
    have := BitVec.toNat_pos_of_ne_zero hsp
    omega
  obtain ⟨hreg, hraised⟩ := raiseSp_setReg_of_ne hb (t.load t.sp) t
  have husp : (raiseSp (t.setReg b (t.load t.sp))).sp = s.sp := by
    rw [hraised, htsp, BitVec.sub_add_cancel]
  refine ⟨t, _, exec_of_completes (.push a hsp), exec_of_completes (.pop b hlow), hreg.trans htread, husp, fun r hr => ?_⟩
  by_cases h7 : r = 7
  · subst h7
    exact husp
  · have hrb : r ∉ [b, 7] := by simpa [h7] using hr
    exact (raiseSp_setReg_registersKept b _ t r hrb).trans (htregs r (by simpa using h7))

/-- Settles O37: the RET finds the return address at the lowered SP. -/
theorem retAfterCallResumes : Obligations.RetAfterCallResumes := by
  unfold Obligations.RetAfterCallResumes
  intro a s hm hsp htop hret
  refine ⟨_, exec_of_completes (.call a hsp hret), fun u husp huread => ?_⟩
  rw [jumpTo_sp, pushAt_sp] at husp huread
  rw [jumpTo_mem, pushAt_read hm] at huread
  have hlow : u.sp.toNat < 244 := by
    rw [husp, sp_sub_toNat hsp]
    have := BitVec.toNat_pos_of_ne_zero hsp
    omega
  refine ⟨_, exec_of_completes (.ret hlow), ?_, ?_⟩
  · rw [raiseSp_pc, jumpTo_pc_toNat, State.load, huread, toNat_ofNat_of_le hret]
  · rw [raiseSp_sp, jumpTo_sp, husp, BitVec.sub_add_cancel]

end Sys2Proof.Proofs

namespace Sys2Proof.Proofs

open Sys2Proof.Machine Sys2Proof.Claims Sys2Proof.Laws

/-! ### Frames, output and events

What an instruction changes besides its registers and the pc is what its own event says (R51, R68): a write for the two
instructions that store, an emit for PRN, at most a read for the others. O29, O33 and O40 to O43 rest on this. -/

/-- Where SP is not 0 a push has an address, the lowered SP (R166). -/
theorem pushAddr_ok {s : State} (hsp : s.sp ≠ 0) : pushAddr s = .ok (s.sp - 1) := by
  rw [pushAddr_eq, if_neg hsp]

/-- Where SP is 0 a push has no address (R166). -/
theorem pushAddr_error {s : State} (hsp : s.sp = 0) : pushAddr s = .error (-1) := by
  rw [pushAddr_eq, if_pos hsp]

/-- Where SP is at STACK_TOP or above a pop has no address (R165). -/
theorem popAddr_error {s : State} (hsp : 244 ≤ s.sp.toNat) : popAddr s = .error (s.sp.toNat : Int) := by
  rw [popAddr_eq, if_pos hsp]

/-- Where SP is below STACK_TOP a pop has an address, SP (R165). -/
theorem popAddr_ok {s : State} (hsp : ¬ 244 ≤ s.sp.toNat) : popAddr s = .ok s.sp := by
  rw [popAddr_eq, if_neg hsp]

/-- PUSH and CALL, completing, store one byte at the lowered SP, and their event records it (R161, R163). -/
theorem Completes.stores {s t : State} {i : Instr} (h : Completes s i t) (hi : storesByte i = true) :
    s.sp ≠ 0 ∧ t.out = s.out ∧
      ∃ v, dataEvents i s = [.write (s.sp - 1) v] ∧ t.mem = s.mem.write (s.sp - 1).toNat v := by
  cases h with
  | push i hsp => exact ⟨hsp, rfl, _, by simp [dataEvents, pushAddr_ok hsp], rfl⟩
  | call i hsp hret => exact ⟨hsp, rfl, _, by simp [dataEvents, pushAddr_ok hsp, hret], rfl⟩
  | _ => cases hi

/-- An instruction that stores nothing leaves memory as it was (R51). -/
theorem Completes.mem_of_not_stores {s t : State} {i : Instr} (h : Completes s i t) (hi : storesByte i = false) :
    t.mem = s.mem := by
  cases h with
  | push | call => cases hi
  | _ => rfl

/-- PRN, completing, emits its register, and its event records it (R132). -/
theorem Completes.emits {s t : State} {a : Byte} (h : Completes s (.prn a) t) :
    ∃ r : Reg, a = regByte r ∧ dataEvents (.prn a) s = [.emit (s.reg r)] ∧ t.out = s.out ++ [s.reg r] := by
  cases h with
  | prn r => exact ⟨r, rfl, by simp [dataEvents], rfl⟩

/-- Every instruction but PRN leaves the output as it was (R13). -/
theorem Completes.out_of_ne_prn {s t : State} {i : Instr} (h : Completes s i t) (hi : ∀ a, i ≠ .prn a) :
    t.out = s.out := by
  cases h with
  | prn r => exact absurd rfl (hi _)
  | _ => rfl

/-- POP and RET, completing, read one byte at SP (R162, R164). -/
theorem Completes.pops {s t : State} {i : Instr} (h : Completes s i t) (hi : i = .ret ∨ ∃ a, i = .pop a) :
    s.sp.toNat < 244 ∧ dataEvents i s = [.read s.sp] := by
  cases h with
  | pop i hsp => exact ⟨hsp, by simp [dataEvents, popAddr_ok hsp.not_ge]⟩
  | ret hsp => exact ⟨hsp, by simp [dataEvents, popAddr_ok hsp.not_ge]⟩
  | _ => simp at hi

/-- Every other instruction has no event of its own (R51). -/
theorem dataEvents_eq_nil {i : Instr} (s : State) (hstore : storesByte i = false) (hret : i ≠ .ret)
    (hpop : ∀ a, i ≠ .pop a) (hprn : ∀ a, i ≠ .prn a) : dataEvents i s = [] := by
  cases i with
  | push | call => cases hstore
  | ret => exact absurd rfl hret
  | pop a => exact absurd rfl (hpop a)
  | prn a => exact absurd rfl (hprn a)
  | _ => rfl

/-- An instruction that raises an error has no event of its own (R68). -/
theorem dataEvents_of_erring {s t : State} {i : Instr} (h : erring i s = some t) : dataEvents i s = [] := by
  by_cases hw : i.WellFormed
  · cases onRegisters_of_wellFormed hw with
    | hlt | ldi | mul | add | sub | div | cmp | jmp | jeq | jne => rfl
    | prn a => simp [erring] at h
    | push a =>
      rw [erring_push] at h
      split_ifs at h with hsp
      simp [dataEvents, pushAddr_error hsp]
    | pop a =>
      rw [erring_pop] at h
      split_ifs at h with hsp
      simp [dataEvents, popAddr_error hsp]
    | ret =>
      rw [erring_ret] at h
      split_ifs at h with hsp
      simp [dataEvents, popAddr_error hsp]
    | call a =>
      rw [erring_call] at h
      split_ifs at h with hsp hret
      · simp [dataEvents, pushAddr_error hsp]
      · simp [dataEvents, pushAddr_ok hsp, hret]
  · have hbad : i.wellFormed = false := by simpa using hw
    cases i with
    | hlt | ldi | mul | add | sub | div | cmp | jmp | jeq | jne => rfl
    | ret => cases hbad
    | prn a | push a | pop a | call a =>
      all_goals
        have ha : regIndex? a = none := regIndex?_eq_none.mpr hbad
        simp [dataEvents, ha]

/-- A completing instruction leaves every register it does not name as written, SP aside where it uses the stack (R20). -/
theorem Completes.reg_kept {s t : State} {i : Instr} {r : Reg} (h : Completes s i t)
    (hdest : regByte r ∉ destinationBytes i) (hstack : usesStack i = true → r ≠ 7) : t.reg r = s.reg r := by
  have hne : ∀ {a : Reg}, regByte r ∉ [regByte a] → r ≠ a := by
    rintro a hnot rfl
    simp at hnot
  cases h with
  | hlt | prn | cmp | jmp | jeqTaken | jeqFalls | jneTaken | jneFalls => rfl
  | ldi a v | mul a b | add a b | sub a b | div a b => exact setReg_reg_ne s a r _ (hne hdest)
  | push a => exact setSp_reg_ne s _ (hstack rfl)
  | call a => exact setSp_reg_ne s _ (hstack rfl)
  | pop a => exact raiseSp_setReg_registersKept a _ s r (by simp [hne hdest, hstack rfl])
  | ret => exact raiseSp_reg_ne _ (hstack rfl)

/-- Settles O29: an error changes the latch alone; a completion's frame is read from the lemmas above. -/
theorem everyInstructionFrame : Obligations.EveryInstructionFrame := by
  unfold Obligations.EveryInstructionFrame
  intro i s t h
  have hfl : isCmp i = false → t.fl = s.fl := fun hi => exec_fl (ne_cmp_of_isCmp hi) h
  have hhalted : i ≠ .hlt → t.halted = s.halted := fun hi => by simp [exec_halted h, hi]
  rcases exec_cases h with herr | ⟨-, hdone⟩
  · obtain ⟨k, ir, addr, rfl, -⟩ := faults_of_erring herr
    exact ⟨fun _ _ _ => rfl, hfl, hhalted, fun _ => rfl, fun _ _ => rfl, fun _ => ⟨fun _ _ _ _ => rfl, fun _ _ _ => rfl⟩⟩
  · refine ⟨fun _ => hdone.reg_kept, hfl, hhalted, hdone.out_of_ne_prn, fun hi a => by rw [hdone.mem_of_not_stores hi],
      fun hi => ?_⟩
    obtain ⟨hsp, -, v, -, hmem⟩ := hdone.stores hi
    rw [pushAddr_ok hsp]
    refine ⟨fun d hd a ha => ?_, nofun⟩
    cases hd
    rw [hmem, read_write_ne _ _ _ _ ha]

/-- Settles O33: an error emits nothing, and of the completions PRN alone does. -/
theorem onlyPrnEmits : Obligations.OnlyPrnEmits := by
  unfold Obligations.OnlyPrnEmits
  refine ⟨fun a s => ⟨_, exec_prn s a, rfl⟩, fun s t h => ?_⟩
  rcases step_outcome h with ⟨⟨k, ir, addr, rfl, -⟩, -⟩ | ⟨i, hcur, hdone⟩
  · exact .inl rfl
  by_cases hprn : ∃ a, i = .prn a
  · obtain ⟨a, rfl⟩ := hprn
    obtain ⟨r, rfl, -, hout⟩ := hdone.emits
    exact .inr ⟨r, hcur, hout⟩
  · push Not at hprn
    exact .inl (hdone.out_of_ne_prn hprn)

/-! ### The events of a step -/

/-- The events of the instruction a step executes, after the reads of its fetch (R68). -/
def ownEvents (s : State) : List Event := ((current s).map fun i => dataEvents i s).getD []

theorem ownEvents_of_current {s : State} {i : Instr} (h : current s = some i) : ownEvents s = dataEvents i s := by
  simp [ownEvents, h]

theorem ownEvents_of_no_current {s : State} (h : current s = none) : ownEvents s = [] := by
  simp [ownEvents, h]

/-- A step that raises an error has no event of its own (R68). -/
theorem ownEvents_of_fault {s t : State} (h : step s = .next t) (hf : t.fault ≠ none) : ownEvents s = [] := by
  obtain ⟨-, herr⟩ := faults_of_fault h hf
  rcases hcur : current s with _ | i
  · exact ownEvents_of_no_current hcur
  · rw [ownEvents_of_current hcur, dataEvents_of_erring (herr i hcur)]

/-- The reads of the fetch, as many as `fetchReads` counts, upward from the pc (R111, R112). -/
def readEvents (s : State) : List Event :=
  (List.range (fetchReads s)).map fun j => .read (BitVec.ofNat 8 (s.pc.toNat + j))

/-- How many bytes a running core's fetch reads. -/
theorem fetchReads_running {s : State} (h : s.Running) :
    fetchReads s =
      if s.pc.toNat > 255 then 0 else if countField (s.mem.read s.pc.toNat) = 3 then 1
      else min (1 + countField (s.mem.read s.pc.toNat)) (256 - s.pc.toNat) := by
  have hguard : ¬ (s.halted = true ∨ s.fault ≠ none) := by simp [h.1, h.2]
  exact if_neg hguard

/-- A core that does not run fetches nothing. -/
theorem fetchReads_not_running {s : State} (h : ¬ s.Running) : fetchReads s = 0 := by
  have hguard : s.halted = true ∨ s.fault ≠ none := by
    by_contra hnot
    push Not at hnot
    exact h ⟨by simpa using hnot.1, hnot.2⟩
  simp [fetchReads, hguard]

/-- The events of a step are the reads of its fetch, then its instruction's own. -/
theorem stepEvents_eq (s : State) : stepEvents s = readEvents s ++ ownEvents s := by
  by_cases hrun : s.Running
  · rw [stepEvents_running hrun, fetchEvents_eq, readEvents, fetchReads_running hrun, ownEvents]
  · have hcur : current s = none := by
      rcases hc : current s with _ | i
      · rfl
      · exact absurd (current_eq_some hc).1 hrun
    rw [stepEvents_not_running hrun, readEvents, fetchReads_not_running hrun, ownEvents_of_no_current hcur]
    rfl

/-- No read of the fetch is past address 255 (R59). -/
theorem pc_add_le_of_lt_fetchReads {s : State} {j : Nat} (h : j < fetchReads s) : s.pc.toNat + j ≤ 255 := by
  by_cases hrun : s.Running
  · rw [fetchReads_running hrun] at h
    split_ifs at h <;> omega
  · rw [fetchReads_not_running hrun] at h
    omega

/-- A fetch that succeeds reads each of its bytes once. -/
theorem fetchReads_of_fetch_ok {s : State} {bytes : List Byte} (hrun : s.Running) (h : fetch s = .ok bytes) :
    fetchReads s = bytes.length := by
  obtain ⟨rfl, hn, hpc⟩ := fetch_ok h
  rw [fetchReads_running hrun, if_neg (by omega), if_neg (by omega), instrBytes_eq_map hn, List.length_map,
    List.length_range]
  omega

/-- Settles O40: the reads by their count, the instruction's own event by its completion. -/
theorem eventsOfAStepInOrder : Obligations.EventsOfAStepInOrder := by
  unfold Obligations.EventsOfAStepInOrder
  intro s
  refine ⟨ownEvents s, stepEvents_eq s, fun j => pc_add_le_of_lt_fetchReads, fun _ => fetchReads_of_fetch_ok,
    ownEvents_of_no_current, fun i hcur => ?_, fun _ => ownEvents_of_fault, fun i t hcur h hf => ?_⟩
  · obtain ⟨hrun, -, hfetch, -⟩ := current_eq_some hcur
    exact fetchReads_of_fetch_ok hrun hfetch
  · have hdone := completes_of_step h hf hcur
    rw [ownEvents_of_current hcur]
    refine ⟨fun hi => ?_, hdone.pops, ?_, dataEvents_eq_nil s⟩
    · obtain ⟨hsp, -, v, hown, -⟩ := hdone.stores hi
      exact ⟨hsp, v, hown⟩
    · rintro a rfl
      obtain ⟨r, ha, hown, -⟩ := hdone.emits
      exact ⟨r, ha, hown⟩

/-- The three ways a step's own events account for memory and output (R51, R68). -/
theorem ownEvents_cases {s t : State} (h : step s = .next t) :
    (∃ v, ownEvents s = [.write (s.sp - 1) v] ∧ t.mem = s.mem.write (s.sp - 1).toNat v ∧ t.out = s.out) ∨
    (∃ v, ownEvents s = [.emit v] ∧ t.mem = s.mem ∧ t.out = s.out ++ [v]) ∨
    ((ownEvents s = [] ∨ ∃ a, ownEvents s = [.read a]) ∧ t.mem = s.mem ∧ t.out = s.out) := by
  rcases step_outcome h with ⟨hfault, -⟩ | ⟨i, hcur, hdone⟩
  · have hown := ownEvents_of_fault h hfault.fault_ne_none
    obtain ⟨k, ir, addr, rfl, -⟩ := hfault
    exact .inr (.inr ⟨.inl hown, rfl, rfl⟩)
  rw [ownEvents_of_current hcur]
  rcases hstore : storesByte i with _ | _
  · have hmem := hdone.mem_of_not_stores hstore
    by_cases hprn : ∃ a, i = .prn a
    · obtain ⟨a, rfl⟩ := hprn
      obtain ⟨r, -, hown, hout⟩ := hdone.emits
      exact .inr (.inl ⟨_, hown, hmem, hout⟩)
    push Not at hprn
    have hout := hdone.out_of_ne_prn hprn
    by_cases hpop : i = .ret ∨ ∃ a, i = .pop a
    · exact .inr (.inr ⟨.inr ⟨_, (hdone.pops hpop).2⟩, hmem, hout⟩)
    · push Not at hpop
      exact .inr (.inr ⟨.inl (dataEvents_eq_nil s hstore hpop.1 hpop.2 hprn), hmem, hout⟩)
  · obtain ⟨-, hout, v, hown, hmem⟩ := hdone.stores hstore
    exact .inl ⟨v, hown, hmem, hout⟩

/-- A step's write events are its instruction's own. -/
theorem write_mem_stepEvents {s : State} {a v : Byte} : .write a v ∈ stepEvents s ↔ .write a v ∈ ownEvents s := by
  simp [stepEvents_eq, readEvents]

/-- What a step emits is in its instruction's own events. -/
theorem filterMap_emitted_stepEvents (s : State) :
    (stepEvents s).filterMap emitted = (ownEvents s).filterMap emitted := by
  have hreads : (readEvents s).filterMap emitted = [] := by simp [readEvents, emitted]
  rw [stepEvents_eq, List.filterMap_append, hreads, List.nil_append]

/-- After a step a written address holds the byte recorded, in canonical memory. -/
theorem read_of_write_mem {s t : State} {a v : Byte} (hm : s.mem.wf = true) (h : step s = .next t)
    (hw : .write a v ∈ stepEvents s) : t.mem.read a.toNat = v := by
  rw [write_mem_stepEvents] at hw
  rcases ownEvents_cases h with ⟨w, hown, hmem, -⟩ | ⟨w, hown, -⟩ | ⟨hown | ⟨b, hown⟩, -⟩ <;> rw [hown] at hw
  · obtain ⟨rfl, rfl⟩ : a = s.sp - 1 ∧ v = w := by simpa using hw
    rw [hmem, read_write_same hm]
  all_goals simp at hw

/-- Settles O41, by the three ways own events account for memory and output. -/
theorem eventsTellWritesAndOutput : Obligations.EventsTellWritesAndOutput := by
  unfold Obligations.EventsTellWritesAndOutput
  intro s t hm h
  refine ⟨fun a v => read_of_write_mem hm h, ?_⟩
  rw [filterMap_emitted_stepEvents]
  simp only [write_mem_stepEvents]
  rcases ownEvents_cases h with ⟨w, hown, hmem, hout⟩ | ⟨w, hown, hmem, hout⟩ | ⟨hown | ⟨b, hown⟩, hmem, hout⟩ <;>
    rw [hown, hmem, hout]
  · exact ⟨fun n hn => read_write_ne _ _ _ _ (hn _ w (List.mem_singleton_self _)), by simp [emitted]⟩
  all_goals exact ⟨fun _ _ => rfl, by simp [emitted]⟩

/-- A fetch within memory begins with the byte at the pc, or its error records that byte (R112). -/
theorem fetch_opcode {s : State} (hpc : s.pc.toNat ≤ 255) :
    (∃ bytes, fetch s = .ok bytes ∧ bytes.head? = some (s.mem.read s.pc.toNat)) ∨
      ∃ r, fetch s = .error r ∧ r.ir = some (s.mem.read s.pc.toNat) := by
  have hle := countField_le (s.mem.read s.pc.toNat)
  by_cases hn : countField (s.mem.read s.pc.toNat) = 3
  · exact .inr ⟨_, fetch_count_three hpc hn, rfl⟩
  by_cases hend : 255 < s.pc.toNat + countField (s.mem.read s.pc.toNat)
  · exact .inr ⟨_, fetch_operand_past_end hpc (by omega) hend, rfl⟩
  · exact .inl ⟨_, fetch_fits (by omega) (by omega), rfl⟩

/-- Settles O43: the byte written is in memory, and the next fetch starts there. -/
theorem nextFetchSeesTheByteWritten : Obligations.NextFetchSeesTheByteWritten := by
  unfold Obligations.NextFetchSeesTheByteWritten
  intro s t a v hm h hw hpc
  have hopcode := fetch_opcode (s := t) (by have := a.isLt; omega)
  rwa [hpc, read_of_write_mem hm h hw] at hopcode

/-! ### A step under another memory -/

/-- The state with another memory. -/
def withMem (s : State) (m : Memory) : State := { s with mem := m }

section WithMem

variable (s : State) (m : Memory)

@[simp] theorem withMem_pc : (withMem s m).pc = s.pc := rfl
@[simp] theorem withMem_mem : (withMem s m).mem = m := rfl
@[simp] theorem withMem_reg (r : Reg) : (withMem s m).reg r = s.reg r := rfl
@[simp] theorem withMem_sp : (withMem s m).sp = s.sp := rfl

theorem withMem_running : (withMem s m).Running ↔ s.Running := Iff.rfl

/-- An instruction's own events do not depend on memory. -/
theorem dataEvents_withMem (i : Instr) : dataEvents i (withMem s m) = dataEvents i s := by
  cases i <;> rfl

end WithMem

/-- Nor does the error listed for an instruction. -/
theorem erring_withMem {s t : State} {i : Instr} (m : Memory) (h : erring i s = some t) :
    erring i (withMem s m) = some (withMem t m) := by
  by_cases hw : i.WellFormed
  · cases onRegisters_of_wellFormed hw with
    | hlt | ldi | prn | mul | add | sub | cmp | jmp | jeq | jne => simp [erring] at h
    | div | push | pop | call | ret =>
      all_goals
        simp only [erring_div, erring_push, erring_pop, erring_call, erring_ret, withMem_reg, withMem_sp, withMem_pc] at h ⊢
        split_ifs at h
        all_goals
          cases h
          simp only [*, if_true, if_false]
          rfl
  · have hbad : i.wellFormed = false := by simpa using hw
    rw [erring_bad hbad] at h ⊢
    cases h
    rfl

/-- An instruction completes alike in any memory that agrees on the byte it reads. -/
theorem Completes.withMem {s t : State} {i : Instr} {m : Memory} (h : Completes s i t)
    (hread : ∀ a, .read a ∈ dataEvents i s → m.read a.toNat = s.mem.read a.toNat) :
    ∃ m', Completes (withMem s m) i (withMem t m') := by
  have hpop : (i = .ret ∨ ∃ a, i = .pop a) → (Proofs.withMem s m).load s.sp = s.load s.sp := by
    intro hi
    exact hread s.sp (by simp [(h.pops hi).2])
  cases h with
  | hlt => exact ⟨_, .hlt⟩
  | ldi a v => exact ⟨_, .ldi a v⟩
  | prn a => exact ⟨_, .prn a⟩
  | mul a b => exact ⟨_, .mul a b⟩
  | add a b => exact ⟨_, .add a b⟩
  | sub a b => exact ⟨_, .sub a b⟩
  | div a b hb => exact ⟨_, .div a b hb⟩
  | cmp a b => exact ⟨_, .cmp a b⟩
  | push a hsp => exact ⟨_, .push a hsp⟩
  | call a hsp hret => exact ⟨_, .call a hsp hret⟩
  | jmp a => exact ⟨_, .jmp a⟩
  | jeqTaken a hE => exact ⟨_, .jeqTaken a hE⟩
  | jeqFalls a hE => exact ⟨_, .jeqFalls a hE⟩
  | jneTaken a hE => exact ⟨_, .jneTaken a hE⟩
  | jneFalls a hE => exact ⟨_, .jneFalls a hE⟩
  | pop a hsp => rw [← hpop (by simp)]; exact ⟨m, .pop a hsp⟩
  | ret hsp => rw [← hpop (by simp)]; exact ⟨m, .ret hsp⟩

/-- An instruction does the same, memory aside, in any memory that agrees on the byte it reads. -/
theorem exec_withMem {s t : State} {i : Instr} {m : Memory} (h : exec i s = .next t)
    (hread : ∀ a, .read a ∈ dataEvents i s → m.read a.toNat = s.mem.read a.toNat) :
    ∃ m', exec i (withMem s m) = .next (withMem t m') := by
  rcases exec_cases h with herr | ⟨-, hdone⟩
  · exact ⟨m, exec_of_erring (erring_withMem m herr)⟩
  · obtain ⟨m', hdone'⟩ := hdone.withMem hread
    exact ⟨m', exec_of_completes hdone'⟩

section Agreement

/-! A running core's fetch, under a memory that agrees on the bytes the fetch reads. -/

variable {s : State} {m : Memory} (hrun : s.Running)
  (hagree : ∀ j, j < fetchReads s → m.read (s.pc.toNat + j) = s.mem.read (s.pc.toNat + j))

include hrun hagree

/-- The two memories hold the same opcode at a pc within memory. -/
theorem opcode_withMem (hpc : s.pc.toNat ≤ 255) : m.read s.pc.toNat = s.mem.read s.pc.toNat := by
  refine hagree 0 ?_
  rw [fetchReads_running hrun, if_neg (by omega)]
  split <;> omega

/-- The fetch reads as many bytes. -/
theorem fetchReads_withMem : fetchReads (withMem s m) = fetchReads s := by
  rw [fetchReads_running ((withMem_running s m).mpr hrun), fetchReads_running hrun, withMem_pc, withMem_mem]
  by_cases hpc : s.pc.toNat > 255
  · rw [if_pos hpc, if_pos hpc]
  · rw [opcode_withMem hrun hagree (by omega)]

/-- The fetch gives the same bytes or the same error. -/
theorem fetch_withMem : fetch (withMem s m) = fetch s := by
  by_cases hpc : 255 < s.pc.toNat
  · rw [fetch_opcode_past_end hpc, fetch_opcode_past_end (s := withMem s m) hpc]
    rfl
  have hop : (withMem s m).mem.read (withMem s m).pc.toNat = s.mem.read s.pc.toNat :=
    opcode_withMem hrun hagree (by omega)
  have hle := countField_le (s.mem.read s.pc.toNat)
  by_cases hn : countField (s.mem.read s.pc.toNat) = 3
  · rw [fetch_count_three (s := s) (by omega) hn,
      fetch_count_three (s := withMem s m) (by simpa using hpc) (by rw [hop]; exact hn), hop]
    rfl
  by_cases hend : 255 < s.pc.toNat + countField (s.mem.read s.pc.toNat)
  · rw [fetch_operand_past_end (by omega) (by omega) hend,
      fetch_operand_past_end (s := withMem s m) (by simpa using hpc) (by rw [hop]; omega) (by rw [hop]; exact hend), hop]
    rfl
  · have hfetch := fetch_fits (s := s) (by omega) (by omega)
    have hcount := fetchReads_of_fetch_ok hrun hfetch
    rw [hfetch, fetch_fits (s := withMem s m) (by rw [hop]; omega) (by rw [hop, withMem_pc]; omega),
      instrBytes_eq_map (by rw [hop]; omega), hop, instrBytes_eq_map (by omega)]
    rw [instrBytes_eq_map (by omega), List.length_map, List.length_range] at hcount
    congr 1
    refine List.map_congr_left fun k hk => hagree k ?_
    rw [hcount]
    exact List.mem_range.mp hk

/-- The instruction executed is the same. -/
theorem current_withMem : current (withMem s m) = current s := by
  unfold current
  rw [fetch_withMem hrun hagree]
  rfl

/-- The events are the same. -/
theorem stepEvents_withMem : stepEvents (withMem s m) = stepEvents s := by
  have hown : ownEvents (withMem s m) = ownEvents s := by
    simp only [ownEvents, current_withMem hrun hagree, dataEvents_withMem]
  rw [stepEvents_eq, stepEvents_eq, hown, readEvents, fetchReads_withMem hrun hagree]
  rfl

end Agreement

/-- A memory that agrees on the bytes a step's events read agrees on those of its fetch. -/
theorem agree_of_stepEvents {s : State} {m : Memory}
    (hread : ∀ a, .read a ∈ stepEvents s → m.read a.toNat = s.mem.read a.toNat) (j : Nat) (hj : j < fetchReads s) :
    m.read (s.pc.toNat + j) = s.mem.read (s.pc.toNat + j) := by
  have haddr := hread (BitVec.ofNat 8 (s.pc.toNat + j)) (by
    rw [stepEvents_eq]
    exact List.mem_append_left _ (List.mem_map.mpr ⟨j, List.mem_range.mpr hj, rfl⟩))
  rwa [toNat_ofNat_of_le (pc_add_le_of_lt_fetchReads hj)] at haddr

/-- Settles O42: the fetch is the same, and the instruction it gives does the same. -/
theorem stepReadsOnlyWhatItsEventsSay : Obligations.StepReadsOnlyWhatItsEventsSay := by
  unfold Obligations.StepReadsOnlyWhatItsEventsSay
  intro s t m h hread
  change stepEvents (withMem s m) = _ ∧ ∃ m', step (withMem s m) = .next (withMem t m')
  have hagree := agree_of_stepEvents hread
  obtain ⟨hrun, hcases⟩ := step_cases h
  refine ⟨stepEvents_withMem hrun hagree, ?_⟩
  have hrun' : (withMem s m).Running := (withMem_running s m).mpr hrun
  have hfetch := fetch_withMem hrun hagree
  obtain ⟨r, hf, -, rfl⟩ | ⟨bytes, e, hf, hd, -, rfl⟩ | ⟨-, i, -, -, -, hcur, -, hexec⟩ := hcases
  · exact ⟨m, step_of_fetch_error hrun' (hfetch.trans hf)⟩
  · refine ⟨m, ?_⟩
    rw [step_running hrun', hfetch, hf]
    simp only [runFetched, hd]
    rfl
  · rw [step_of_current ((current_withMem hrun hagree).trans hcur)]
    refine exec_withMem hexec fun a ha => hread a ?_
    rw [stepEvents_eq, ownEvents_of_current hcur]
    exact List.mem_append_right _ ha

end Sys2Proof.Proofs

namespace Sys2Proof.Proofs

open Sys2Proof.Machine Sys2Proof.Claims Sys2Proof.Laws

/-! ### The step is the spec's whole-step function

O7 compares the machine with R118 as transcribed on integers. Each operation of the transcription is first shown to be
the machine's; each instruction then follows line by line. -/

/-- R118's `raise` with an opcode is the machine's. -/
theorem stopped_eq (s : State) (k : ErrorKind) (ir : Byte) (addr : Option Int) :
    s.stopped k k.code (some ir.toNat) addr = takeFault (faultRecord k (some ir) addr s) s := by
  simp [State.stopped, takeFault, faultRecord]

/-- R118's `reg(r)` is the machine's register check (R90). -/
theorem withReg_eq_regOr {m : Mnemonic} {ir : Nat} (hir : (opc m).toNat = ir) {a : Byte} {s : State} {k : Reg → Result}
    {line : Reg → State} (h : ∀ i, k i = .next (line i)) : withReg m a s k = .next (s.regOr ir a.toNat line) := by
  subst hir
  rcases regByte_or_bad a with ⟨i, rfl⟩ | hbad
  · have hi : (regByte i).toNat = i.val := by
      revert i
      decide
    rw [withReg_regByte, h, State.regOr, dif_neg (regByte_toNat_not_gt i)]
    simp only [hi]
  · rw [withReg_bad hbad, State.regOr, dif_pos (namesRegister_eq_false.mp hbad)]
    exact congrArg Host.Outcome.next (stopped_eq s .decodeError (opc m) none).symm

/-- A byte is not changed by reducing modulo 256 first. -/
theorem ofNat_mod_256 (n : Nat) : BitVec.ofNat 8 (n % 256) = BitVec.ofNat 8 n := by
  apply BitVec.eq_of_toNat_eq
  simp

/-- The byte of an integer is that of its residue. -/
theorem ofNat_emod_256 (z : Int) : BitVec.ofNat 8 (z % 256).toNat = BitVec.ofInt 8 z := by
  apply BitVec.eq_of_toNat_eq
  rw [BitVec.toNat_ofNat, BitVec.toNat_ofInt]
  omega

/-- The byte of a byte's value is the byte. -/
theorem ofNat_toNat_byte (v : Byte) : BitVec.ofNat 8 v.toNat = v := by
  rw [BitVec.ofNat_toNat, BitVec.setWidth_eq]

theorem withPc_toNat (s : State) (v : Byte) : s.withPc v.toNat = s.jumpTo v := by
  rw [State.withPc, State.jumpTo, BitVec.ofNat_toNat]

/-- R118's `x[7] - 1` is the lowered SP. -/
theorem reg_seven_sub_one {s : State} (hsp : s.sp ≠ 0) : (s.reg 7).toNat - 1 = (s.sp - 1).toNat :=
  (sp_sub_toNat hsp).symm

/-- R118's line for an instruction's opcode is the machine's execution of it, on operands good or bad. -/
theorem exec_eq_referenceLine (p : Mnemonic) (a b : Byte) (s : State) :
    exec (assemble p a b) s = .next (s.referenceLine (opc p).toNat a.toNat b.toNat (s.next p)) := by
  cases p <;> simp only [assemble, exec, opc, BitVec.reduceToNat, State.referenceLine]
  case HLT => rfl
  case LDI => exact withReg_eq_regOr rfl fun i => by rw [ofNat_toNat_byte]; rfl
  case PRN => exact withReg_eq_regOr rfl fun i => by rw [ofNat_toNat_byte]; rfl
  case MUL => exact withReg_eq_regOr rfl fun i => withReg_eq_regOr rfl fun j => by rw [ofNat_mod_256]; rfl
  case ADD => exact withReg_eq_regOr rfl fun i => withReg_eq_regOr rfl fun j => by rw [ofNat_mod_256]; rfl
  case SUB => exact withReg_eq_regOr rfl fun i => withReg_eq_regOr rfl fun j => by rw [ofNat_emod_256]; rfl
  case CMP => exact withReg_eq_regOr rfl fun i => withReg_eq_regOr rfl fun j => rfl
  case DIV =>
    refine withReg_eq_regOr rfl fun i => withReg_eq_regOr rfl fun j => ?_
    simp only [alu]
    split_ifs <;> rfl
  case JMP => exact withReg_eq_regOr rfl fun i => by rw [withPc_toNat]; rfl
  case JEQ =>
    refine withReg_eq_regOr rfl fun i => ?_
    rw [withPc_toNat]
    split_ifs <;> rfl
  case JNE =>
    refine withReg_eq_regOr rfl fun i => ?_
    rw [withPc_toNat]
    cases s.fl.E <;> rfl
  case PUSH =>
    refine withReg_eq_regOr rfl fun i => ?_
    by_cases hsp : (s.reg 7).toNat = 0
    · rw [pushAddr_error (toNat_eq_zero_iff.mp hsp), if_pos hsp]
      rfl
    · have hne : s.sp ≠ 0 := mt toNat_eq_zero_iff.mpr hsp
      rw [pushAddr_ok hne, if_neg hsp, reg_seven_sub_one hne, ofNat_toNat_byte]
      rfl
  case CALL =>
    refine withReg_eq_regOr rfl fun i => ?_
    by_cases hsp : (s.reg 7).toNat = 0
    · rw [pushAddr_error (toNat_eq_zero_iff.mp hsp), if_pos hsp]
      rfl
    · have hne : s.sp ≠ 0 := mt toNat_eq_zero_iff.mpr hsp
      rw [pushAddr_ok hne, if_neg hsp, reg_seven_sub_one hne, ofNat_toNat_byte, withPc_toNat]
      dsimp only
      split_ifs <;> rfl
  case POP =>
    refine withReg_eq_regOr rfl fun i => ?_
    by_cases hsp : (s.reg 7).toNat ≥ 244
    · rw [popAddr_error hsp, if_pos hsp]
      rfl
    · rw [popAddr_ok hsp, if_neg hsp, ofNat_mod_256]
      rfl
  case RET =>
    by_cases hsp : (s.reg 7).toNat ≥ 244
    · rw [execRet, popAddr_error hsp, if_pos hsp]
      rfl
    · rw [execRet, popAddr_ok hsp, if_neg hsp, withPc_toNat]
      rfl

/-- R118's last line: a byte that is no opcode. -/
theorem referenceLine_unknown {ir : Byte} (h : ∀ p, opc p ≠ ir) (s : State) (a b next : Nat) :
    s.referenceLine ir.toNat a b next = decodeErrorAt ir s := by
  have hne : ∀ p, ir.toNat ≠ (opc p).toNat := fun p hp => h p (BitVec.eq_of_toNat_eq hp.symm)
  have hnot : ir.toNat ∉ Mnemonic.all.map fun p => (opc p).toNat := by
    simpa [mem_all] using fun p hp => hne p hp.symm
  unfold State.referenceLine
  split
  case h_16 => exact stopped_eq s .decodeError ir none
  all_goals
    next heq =>
    rw [heq] at hnot
    exact absurd (by decide) hnot

/-- From `halted` 0, an empty latch and a pc of 0 to 256, the step is R118's. -/
theorem step_eq_referenceRunning {s : State} (hrun : s.Running) (hmax : s.pc.toNat ≤ 256) :
    step s = .next s.referenceRunning := by
  have hle := countField_le (s.mem.read s.pc.toNat)
  have hcount : (s.mem.read s.pc.toNat).toNat / 64 = countField (s.mem.read s.pc.toNat) := rfl
  simp only [State.referenceRunning, hcount]
  by_cases hpc : 255 < s.pc.toNat
  · rw [if_pos hpc, step_of_fetch_error hrun (fetch_opcode_past_end hpc), show s.pc.toNat = 256 by omega]
    rfl
  rw [if_neg hpc]
  by_cases hn : countField (s.mem.read s.pc.toNat) = 3
  · rw [if_pos hn, step_of_fetch_error hrun (fetch_count_three (by omega) hn)]
    exact congrArg Host.Outcome.next (stopped_eq s .decodeError _ none).symm
  rw [if_neg hn]
  by_cases hend : 255 < s.pc.toNat + countField (s.mem.read s.pc.toNat)
  · rw [step_of_fetch_error hrun (fetch_operand_past_end (by omega) (by omega) hend)]
    refine congrArg Host.Outcome.next ((stopped_eq s .boundsError _ _).symm.trans ?_)
    by_cases hfirst : countField (s.mem.read s.pc.toNat) ≥ 1 ∧ s.pc.toNat + 1 > 255
    · rw [if_pos hfirst]
      rfl
    · rw [if_neg hfirst, if_pos (by omega)]
      rfl
  · rw [if_neg (by omega), if_neg (by omega), step_of_fits hrun (by omega) (by omega)]
    by_cases hop : ∃ p, opc p = s.mem.read s.pc.toNat
    · obtain ⟨p, hp⟩ := hop
      rw [instrBytes_of_opcode hp.symm, runFetched_encode, exec_eq_referenceLine, ← hp, admissible_count opc_admissible]
      rfl
    · push Not at hop
      rw [runFetched_unknown hop, referenceLine_unknown hop]

/-- Settles O7: both sides have a next state exactly while the core runs, and then the same. -/
theorem stepIsTheWholeStepFunction : Obligations.StepIsTheWholeStepFunction := by
  unfold Obligations.StepIsTheWholeStepFunction
  intro s t hmax
  by_cases hrun : s.Running
  · rw [step_eq_referenceRunning hrun hmax, reference, if_neg (by simp [hrun.1, hrun.2])]
    simp
  · have hguard : s.halted = true ∨ s.fault ≠ none := by
      by_contra hnot
      push Not at hnot
      exact hrun ⟨by simpa using hnot.1, hnot.2⟩
    rw [reference, if_pos hguard]
    exact iff_of_false (fun h => hrun (running_of_step h)) nofun

end Sys2Proof.Proofs
